-- ==== Sys2Proof/Word.lean ====
section
/-! DEFINITION. The bit vectors of the core: bus words, 16-bit samples and coefficients, byte lanes
(00_scope R9, R10, R11). A signed value (`int32`, `int16`) is the bit vector read by `BitVec.toInt`. -/

namespace Sys2Proof

/-- A 32-bit word: a bus word, a filter cell, an operand or result register (R9 `CELL_W`, R10). -/
abbrev Word := BitVec 32

/-- A 16-bit value: a coefficient or a sample (R9 `COEF_W`, `SAMPLE_W`). -/
abbrev Half := BitVec 16

/-- One byte lane of a buffer word (R55). -/
abbrev Byte := BitVec 8

end Sys2Proof
end

