-- ==== Sys2Proof/Syntax.lean ====
section
/-! DEFINITION. The commands of the core: one constructor per row of spec/opcode_table.json
(30_encoding R70, R73). -/

namespace Sys2Proof

/-- A command the host can write to `CMD` (R2, R73). Only `PROCESS` carries an operand in its word (R72). -/
inductive Instr where
  /-- `NOP` (R170) -/
  | nop
  /-- `PROCESS N` (R152); `n` is the `uint16` argument `ARG` -/
  | process (n : Nat)
  /-- `STEP` (R153) -/
  | step
  /-- `CLEAR_STATE` (R171) -/
  | clearState
  /-- `CFG_COMMIT` (R172) -/
  | cfgCommit
  /-- `TOFIXED` (R110) -/
  | toFixed
  /-- `SMUL` (R111) -/
  | smul
  /-- `SMLA` (R112) -/
  | smla
  /-- `ASR` (R113) -/
  | asr
  /-- `SAT16` (R114) -/
  | sat16
  /-- `ADD32` (R115) -/
  | add32
  /-- `SUB32` (R116) -/
  | sub32
  /-- `GAIN` (R144) -/
  | gain
deriving DecidableEq, Repr

end Sys2Proof
end

