-- ==== Sys2Proof/WellFormed.lean ====
section
/-! DEFINITION. Which commands a command word can hold: `ARG` is a `uint16` (30_encoding R70). -/

namespace Sys2Proof

/-- The command fits its word: the sample count of `PROCESS` is a `uint16` (R70, R72 (a)); no other
command has an operand of its own. -/
def Instr.wellFormed : Instr → Bool
  | .nop => true
  | .process n => decide (n < 65536)
  | .step => true
  | .clearState => true
  | .cfgCommit => true
  | .toFixed => true
  | .smul => true
  | .smla => true
  | .asr => true
  | .sat16 => true
  | .add32 => true
  | .sub32 => true
  | .gain => true

end Sys2Proof
end

