-- ==== Sys2Proof/Decode.lean ====
section
/-! DEFINITION. The command word (30_encoding R70, R72 (a), R73, R74): the decoder, total on every
32-bit word and rejecting by name; the encoder; the opcode table as masks and patterns. -/

namespace Sys2Proof

/-- Why a word is no command (R74). Each is the error `CMD_ILLEGAL` to the host (R181 check 1). -/
inductive DecodeError where
  /-- `OP` is not in the table of R73 -/
  | reservedOpcode
  /-- `RSV != 0` -/
  | reservedBits
  /-- `ARG != 0` on a command other than `PROCESS` -/
  | unexpectedArgument
deriving DecidableEq, Repr

/-- What the decoder answers. -/
inductive Decoded where
  | command (i : Instr)
  | illegal (why : DecodeError)
deriving DecidableEq, Repr

/-- `OP`, bits `[7:0]` (R70). -/
def opField (w : Word) : Nat := w.toNat % 256

/-- `RSV`, bits `[15:8]` (R70). -/
def rsvField (w : Word) : Nat := w.toNat / 256 % 256

/-- `ARG`, bits `[31:16]`, unsigned (R70, R72 (a)). -/
def argField (w : Word) : Nat := w.toNat / 65536

/-- A command whose `ARG` must be 0 (R70, R74). -/
def withoutArg (arg : Nat) (i : Instr) : Decoded :=
  if arg = 0 then .command i else .illegal .unexpectedArgument

/-- The opcode map of R73; every other `OP` is reserved (R74). -/
def decodeOp (op arg : Nat) : Decoded :=
  match op with
  | 0x00 => withoutArg arg .nop
  | 0x01 => .command (.process arg)
  | 0x02 => withoutArg arg .step
  | 0x03 => withoutArg arg .clearState
  | 0x04 => withoutArg arg .cfgCommit
  | 0x10 => withoutArg arg .toFixed
  | 0x11 => withoutArg arg .smul
  | 0x12 => withoutArg arg .smla
  | 0x13 => withoutArg arg .asr
  | 0x14 => withoutArg arg .sat16
  | 0x15 => withoutArg arg .add32
  | 0x16 => withoutArg arg .sub32
  | 0x17 => withoutArg arg .gain
  | _ => .illegal .reservedOpcode

/-- The command in a word written to `CMD`, or why there is none (R71, R74). -/
def decode (w : Word) : Decoded :=
  if rsvField w = 0 then decodeOp (opField w) (argField w) else .illegal .reservedBits

/-- The opcode of a command (R73). -/
def opcode : Instr → Nat
  | .nop => 0x00
  | .process _ => 0x01
  | .step => 0x02
  | .clearState => 0x03
  | .cfgCommit => 0x04
  | .toFixed => 0x10
  | .smul => 0x11
  | .smla => 0x12
  | .asr => 0x13
  | .sat16 => 0x14
  | .add32 => 0x15
  | .sub32 => 0x16
  | .gain => 0x17

/-- The argument field of a command: `N` for `PROCESS`, 0 for every other (R70). -/
def argument : Instr → Nat
  | .nop => 0
  | .process n => n
  | .step => 0
  | .clearState => 0
  | .cfgCommit => 0
  | .toFixed => 0
  | .smul => 0
  | .smla => 0
  | .asr => 0
  | .sat16 => 0
  | .add32 => 0
  | .sub32 => 0
  | .gain => 0

/-- The command word `ARG << 16 | OP` (R70, R77 `cmd M`). -/
def encode (i : Instr) : Word := BitVec.ofNat 32 (argument i * 65536 + opcode i)

/-- One row of the table of R73: the words `w` with `w & mask = bits`. -/
structure OpcodeRow where
  mnemonic : String
  bits : Word
  mask : Word
deriving DecidableEq, Repr

/-- The thirteen rows of R73 with their match and mask. -/
def opcodeTable : List OpcodeRow :=
  [⟨"NOP", 0x00000000, 0xFFFFFFFF⟩, ⟨"PROCESS", 0x00000001, 0x0000FFFF⟩,
   ⟨"STEP", 0x00000002, 0xFFFFFFFF⟩, ⟨"CLEAR_STATE", 0x00000003, 0xFFFFFFFF⟩,
   ⟨"CFG_COMMIT", 0x00000004, 0xFFFFFFFF⟩, ⟨"TOFIXED", 0x00000010, 0xFFFFFFFF⟩,
   ⟨"SMUL", 0x00000011, 0xFFFFFFFF⟩, ⟨"SMLA", 0x00000012, 0xFFFFFFFF⟩,
   ⟨"ASR", 0x00000013, 0xFFFFFFFF⟩, ⟨"SAT16", 0x00000014, 0xFFFFFFFF⟩,
   ⟨"ADD32", 0x00000015, 0xFFFFFFFF⟩, ⟨"SUB32", 0x00000016, 0xFFFFFFFF⟩,
   ⟨"GAIN", 0x00000017, 0xFFFFFFFF⟩]

/-- A word is in a row's set (R73). -/
def OpcodeRow.matches (r : OpcodeRow) (w : Word) : Bool := w &&& r.mask == r.bits

/-- The instruction the decoder reads from an instruction of `nbits` bits `w`, bits above `nbits` being
0. A command is exactly one 32-bit word (R70); a number beyond it is no command. -/
def decodeTableWord (nbits w : Nat) : Option Instr :=
  let word := w % 2 ^ nbits
  if word < 2 ^ 32 then
    match decode (BitVec.ofNat 32 word) with
    | .command i => some i
    | .illegal _ => none
  else none

end Sys2Proof
end

