-- ==== Sys2Proof/Machine/Arith.lean ====
section
/-! DEFINITION. The fixed-point primitives (40_primitives R100 to R106): each operand is read as an
integer, the result is computed exactly and narrowed at the end. -/

namespace Sys2Proof.Machine

/-- `wrap32(v)` (R12). -/
def wrap32 (v : Int) : Word := BitVec.ofInt 32 v

/-- `to_fixed(s) = s * 1024` (R100). -/
def toFixed (s : Half) : Word := wrap32 (s.toInt * 1024)

/-- `smul(x, c) = floor(x * c / 2^16)` of the exact product (R101). -/
def smul (x : Word) (c : Half) : Word := wrap32 (x.toInt * c.toInt / 65536)

/-- `add32(a, b) = wrap32(a + b)` (R105). -/
def add32 (a b : Word) : Word := wrap32 (a.toInt + b.toInt)

/-- `sub32(a, b) = wrap32(a - b)` (R106). -/
def sub32 (a b : Word) : Word := wrap32 (a.toInt - b.toInt)

/-- `smla(b, x, c) = add32(b, smul(x, c))` (R102). -/
def smla (b x : Word) (c : Half) : Word := add32 b (smul x c)

/-- `asr(x, n) = floor(x / 2^n)` (R103). -/
def asr (x : Word) (n : Nat) : Word := wrap32 (x.toInt / 2 ^ n)

/-- `sat16(x)`: the nearest value of the signed 16-bit range (R104). -/
def sat16 (x : Word) : Half :=
  if x.toInt < -32768 then BitVec.ofInt 16 (-32768)
  else if 32767 < x.toInt then BitVec.ofInt 16 32767
  else BitVec.ofInt 16 x.toInt

/-- The output stage `gain(pre) = sat16(asr(smla(256, pre, N3), 9))` (R143). -/
def gain (pre : Word) (n3 : Half) : Half := sat16 (asr (smla 256 pre n3) 9)

end Sys2Proof.Machine
end

