-- ==== Sys2Proof/Config.lean ====
section
/-! DEFINITION. What an implementation fixes (00_scope R9) and the free values the spec leaves open
(93_implementation_defined U7, U10, U12). The free values are opaque: nothing can evaluate them, so a
statement that mentions one holds for every value of it. -/

namespace Sys2Proof.Config

/-- The content of register `ID` (R9 `ID_VALUE`, R30). -/
def idValue : Word := 0x55503248

/-- `IBUF_DEPTH - 1` at `State.reset`. DESIGN CHOICE (log 1), unsafe: R9 leaves `IBUF_DEPTH` open in
1..1024; 16 is the depth the spec's own vectors use. `State.resetAt` takes every other depth. -/
def resetDepthPred : Fin 1024 := 15

/-- FREE VALUE (R42, U7; log 2): the byte a lane of a buffer word holds after reset number `epoch` as
long as nobody has written it, at window offset `offset`. Safe: nothing is known of it. -/
opaque freshByte (epoch offset : Nat) : Byte

/-- FREE VALUE (R9 `LATENCY`, R222, U10; log 6): draw number `n` of how many host turns land before the
sequencer's next turn. Any finite number, so completion is eventually taken (R222). Safe. -/
opaque hostTurns (n : Nat) : Nat

/-- FREE VALUE (R9 `BASE`, U12; log 9): the window's place on the platform bus, in units of 16 KiB. Safe. -/
opaque baseIndex : Nat

/-- `BASE`: the bus address of the core's window, 16 KiB aligned (R9, R50). -/
def base : Nat := 16384 * baseIndex

end Sys2Proof.Config
end

