-- ==== Sys2Proof/Machine/State.lean ====
section
/-! DEFINITION. The state of the core as plain data (10_state.md), its reset value (R47, R210), the
events the outside world can bring (00_scope R6, R7) and the reasons a step can stop. -/

namespace Sys2Proof.Machine

/-- The six filter cells (R20). -/
structure Cells where
  s0 : Word
  s1 : Word
  s2 : Word
  s3 : Word
  s4 : Word
  s5 : Word
deriving DecidableEq, Repr

/-- The eight coefficient registers (R23). -/
structure Coefs where
  a0e : Half
  a1e : Half
  a0o : Half
  a1o : Half
  n0 : Half
  n1 : Half
  n2 : Half
  n3 : Half
deriving DecidableEq, Repr

/-- `ERRCAUSE.CODE`, by the names of R183. Codes 9..15 are never recorded (R183, U19; log 11). -/
inductive ErrCode where
  | none
  | cmdIllegal
  | cmdNotCfg
  | cmdBadLen
  | cfgInvalid
  | busBusy
  | busSubword
  | busUnmapped
  | busReadonly
deriving DecidableEq, Repr

/-- The phase of a sample step (R43). The odd position carries what the even phase hands on: the Q10
input `v` (R150) and the even output `y_e` (R153). DEDUCED (log 8), safe: not observable (R154). -/
inductive Phase where
  | even
  | odd (v : Word) (yE : Half)
deriving DecidableEq, Repr

/-- The sequencer position (R43). `cmd` is also the command latch of R45: opcode and `N` (log 7). The `k`
and `phase` of the commands other than `PROCESS` are the model's choice (log 20). -/
inductive Seq where
  | idle
  | run (cmd : Instr) (k : Nat) (phase : Phase)
deriving DecidableEq, Repr

/-- The buffer bytes written since reset, by window offset, strictly rising (R40, R41, R52; logs 3, 4). -/
abbrev Memory := List Host.Cell

/-- What reaches the core from outside (R6). `bits` is the width of an access (R54), `off` its offset
in the 16 KiB window (R50). `wait` is the polling loop of R77. -/
inductive HostEvent where
  | read (bits : Nat) (off : BitVec 14)
  | write (bits : Nat) (off : BitVec 14) (w : Word)
  | wait
  | reset
deriving DecidableEq, Repr

/-- The state of the core and of the host that drives it. -/
structure State where
  /-- `S[0..5]` (R20) -/
  cells : Cells
  /-- `A0E`..`N3` (R23) -/
  coefs : Coefs
  /-- `OPA` (R28) -/
  opa : Word
  /-- `OPB` (R28) -/
  opb : Word
  /-- `OPC` (R28) -/
  opc : Word
  /-- `RES` (R29) -/
  res : Word
  /-- `STATUS.DONE` (R35) -/
  done : Bool
  /-- `STATUS.CFGV` (R36) -/
  cfgv : Bool
  /-- `STATUS.OVF` (R37) -/
  ovf : Bool
  /-- `ERRCAUSE.CODE` (R39) -/
  errcause : ErrCode
  /-- sequencer position and command latch (R43, R45); `STATUS.BUSY` is read off it (R34) -/
  seq : Seq
  /-- `OVF_PEND` (R44) -/
  ovfPend : Bool
  /-- `CAPS[15:0] - 1`, the OPEN parameter `IBUF_DEPTH` less one (R9, R31) -/
  ibufDepthPred : Fin 1024
  /-- `IBUF` and `OBUF`: the bytes written since reset (R40, R41, R42) -/
  mem : Memory
  /-- MODEL's own: the host's accesses and the resets still to come, oldest first (log 5) -/
  host : List HostEvent
  /-- MODEL's own: the values the host's reads returned, oldest first (R223; log 5) -/
  reads : List Word
  /-- MODEL's own: how many resets have happened (log 2) -/
  epoch : Nat
  /-- MODEL's own: how many latency draws have been taken (log 6) -/
  draws : Nat
  /-- MODEL's own: host turns still to land before the sequencer's next turn (log 6) -/
  slack : Nat
deriving DecidableEq, Repr

/-- Why the machine stops with a fault: it has no constructor. Safe: the spec gives every access and
every command a defined outcome (R185; 93_implementation_defined: "No entry of this hardware uses
`fault` or `stuck`"), so nothing raises one. -/
inductive Fault where
deriving DecidableEq, Repr

/-- Why a step answers nothing. -/
inductive Refusal where
  /-- raised by an arm of `exec` for a command without a meaning; safe (the machine stops). No arm of
  this model raises it. -/
  | notModelled (mnemonic : String)
deriving DecidableEq, Repr

/-- The reset values of R47 for a core whose `IBUF_DEPTH` is `depthPred + 1`; nothing written to the
buffers (R42), no host event waiting. -/
def State.resetAt (depthPred : Fin 1024) : State where
  cells := ⟨0, 0, 0, 0, 0, 0⟩
  coefs := ⟨0, 0, 0, 0, 0, 0, 0, 0⟩
  opa := 0
  opb := 0
  opc := 0
  res := 0
  done := false
  cfgv := false
  ovf := false
  errcause := .none
  seq := .idle
  ovfPend := false
  ibufDepthPred := depthPred
  mem := []
  host := []
  reads := []
  epoch := 0
  draws := 0
  slack := 0

/-- The machine right after reset (R47, R210), with the depth of log 1. -/
def State.reset : State := State.resetAt Config.resetDepthPred

end Sys2Proof.Machine
end

