-- ==== Sys2Proof/Machine/Flags.lean ====
section
/-! DEFINITION. Overflow recording (40_primitives R105 to R107) and the `STATUS` bits that have no
storage of their own (10_state R34, R38). -/

namespace Sys2Proof.Machine

/-- `fits32(v)`: `v` is an `int32` (R12). -/
def fits32 (v : Int) : Bool := decide (-2147483648 ≤ v) && decide (v ≤ 2147483647)

/-- `add32(a, b)` wraps (R105). -/
def addWraps (a b : Word) : Bool := !fits32 (a.toInt + b.toInt)

/-- `sub32(a, b)` wraps (R106). -/
def subWraps (a b : Word) : Bool := !fits32 (a.toInt - b.toInt)

/-- `smla(b, x, c)` wraps: only its addition can (R102, R107). -/
def smlaWraps (b x : Word) (c : Half) : Bool := addWraps b (smul x c)

/-- The addition of the output stage wraps (R143; the rule derives that it never does). -/
def gainWraps (pre : Word) (n3 : Half) : Bool := smlaWraps 256 pre n3

/-- `STATUS.BUSY`: 1 exactly when the sequencer is not `IDLE` (R34, R43). -/
def State.busy (s : State) : Bool :=
  match s.seq with
  | .idle => false
  | .run _ _ _ => true

/-- `STATUS.ERR`: 1 exactly when a code is recorded (R38). -/
def State.err (s : State) : Bool := !decide (s.errcause = .none)

/-- `OVF_PEND <- 1` if a primitive wrapped, else unchanged (R44, R107). -/
def State.markWrapped (wrapped : Bool) (s : State) : State := { s with ovfPend := s.ovfPend || wrapped }

/-- A bit of a status word at place `i`. -/
def flagAt (b : Bool) (i : Nat) : Nat := if b then 2 ^ i else 0

/-- The word a read of `STATUS` returns; bits `[31:5]` read 0 (R33). -/
def State.statusWord (s : State) : Word :=
  BitVec.ofNat 32 (flagAt s.busy 0 + flagAt s.done 1 + flagAt s.cfgv 2 + flagAt s.ovf 3 + flagAt s.err 4)

/-- The number of an error code (R183). -/
def ErrCode.toNat : ErrCode → Nat
  | .none => 0
  | .cmdIllegal => 1
  | .cmdNotCfg => 2
  | .cmdBadLen => 3
  | .cfgInvalid => 4
  | .busBusy => 5
  | .busSubword => 6
  | .busUnmapped => 7
  | .busReadonly => 8

/-- `COEF_OK`: the sign invariant of both allpass pairs (R24). -/
def Coefs.ok (c : Coefs) : Bool :=
  decide (0 < c.a0e.toInt) && decide (c.a1e.toInt < 0) && decide (0 < c.a0o.toInt) && decide (c.a1o.toInt < 0)

end Sys2Proof.Machine
end

