-- ==== Sys2Proof/Machine/Operands.lean ====
section
/-! DEFINITION. Bit fields, sign extension and operand assembly (00_scope R11, 30_encoding R72). -/

namespace Sys2Proof.Machine

/-- `w[15:0]` (R11, R56). -/
def lowHalf (w : Word) : Half := BitVec.ofNat 16 w.toNat

/-- `u32(sext_16(h))`: a 16-bit value sign-extended to a bus word (R11, R23, R56). -/
def sext16 (h : Half) : Word := BitVec.ofInt 32 h.toInt

/-- `{hi, lo}` of two 16-bit values, each zero-extended (R11, R153). -/
def pack16 (hi lo : Half) : Word := BitVec.ofNat 32 (hi.toNat * 65536 + lo.toNat)

/-- `w[i]` (R11). -/
def bit (w : Word) (i : Nat) : Bool := w.toNat / 2 ^ i % 2 == 1

/-- The byte lane 0 of a 16-bit value (R55). -/
def lowByte (h : Half) : Byte := BitVec.ofNat 8 h.toNat

/-- The byte lane 1 of a 16-bit value (R55). -/
def highByte (h : Half) : Byte := BitVec.ofNat 8 (h.toNat / 256)

/-- The 16-bit value of two byte lanes (R55). -/
def ofBytes (hi lo : Byte) : Half := BitVec.ofNat 16 (hi.toNat * 256 + lo.toNat)

/-- The sample operand `sext_16(OPA[15:0])` of `TOFIXED` and `STEP` (R72 (d)). -/
def State.sampleOperand (s : State) : Half := lowHalf s.opa

/-- The coefficient operand of `SMUL`, `OPB[15:0]` (R72 (c)). -/
def State.smulCoef (s : State) : Half := lowHalf s.opb

/-- The coefficient operand of `SMLA`, `OPC[15:0]` (R72 (c)). -/
def State.smlaCoef (s : State) : Half := lowHalf s.opc

/-- The shift amount of `ASR`, `OPB[4:0]`, in 0..31 (R72 (e)). -/
def State.shiftAmount (s : State) : Nat := s.opb.toNat % 32

/-- The gain operand, register `N3` (R72 (f)). -/
def State.gainOperand (s : State) : Half := s.coefs.n3

end Sys2Proof.Machine
end

