-- ==== Sys2Proof/Machine/Ops.lean ====
section
/-! DEFINITION. The shared operations over memory, registers, errors, and a command's checks,
acceptance and completion (20_memory, 30_encoding R71, 60_exceptions R180 to R187, 70_reset R210). -/

namespace Sys2Proof.Machine

/-! ### Buffer memory -/

/-- The byte written at `a` since reset; `none` where nobody has written one (R42; log 4). -/
def Memory.get? : Memory → Nat → Option Byte
  | [], _ => none
  | (a, b) :: m, x => if x = a then some b else Memory.get? m x

/-- Writes one byte, keeping the addresses strictly rising (log 4). -/
def Memory.set : Memory → Nat → Byte → Memory
  | [], x, v => [(x, v)]
  | (a, b) :: m, x, v =>
    if x < a then (x, v) :: (a, b) :: m
    else if x = a then (x, v) :: m
    else (a, b) :: Memory.set m x v

/-- The canonical form: addresses strictly rising, so one entry at most per byte (log 4). -/
abbrev Memory.wf (m : Memory) : Prop := m.Pairwise fun p q => p.1 < q.1

/-- The byte at window offset `a`: the one written last, or the free draw of R42 (log 2). -/
def State.byteAt (s : State) (a : Nat) : Byte := (Memory.get? s.mem a).getD (Config.freshByte s.epoch a)

/-- The 16-bit buffer word at window offset `a` (R40, R41, R55). -/
def State.halfAt (s : State) (a : Nat) : Half := ofBytes (s.byteAt (a + 1)) (s.byteAt a)

/-- Stores a 16-bit buffer word at window offset `a` (R40, R41, R55). -/
def State.setHalf (a : Nat) (h : Half) (s : State) : State :=
  { s with mem := Memory.set (Memory.set s.mem a (lowByte h)) (a + 1) (highByte h) }

/-- The offset of `IBUF[k]` (R40). -/
def ibufAddr (k : Nat) : Nat := 0x1000 + 4 * k

/-- The offset of `OBUF[j]` (R41). -/
def obufAddr (j : Nat) : Nat := 0x2000 + 4 * j

/-- `IBUF[k]` (R14, R40). -/
def State.ibuf (s : State) (k : Nat) : Half := s.halfAt (ibufAddr k)

/-- `OBUF[j]` (R14, R41). -/
def State.obuf (s : State) (j : Nat) : Half := s.halfAt (obufAddr j)

/-- `IBUF[k] <- h`, by the host (R40). -/
def State.setIbuf (k : Nat) (h : Half) (s : State) : State := s.setHalf (ibufAddr k) h

/-- `OBUF[j] <- h` (R14, R41). -/
def State.setObuf (j : Nat) (h : Half) (s : State) : State := s.setHalf (obufAddr j) h

/-- `IBUF_DEPTH`, in 1..1024 (R9, R31). -/
def State.ibufDepth (s : State) : Nat := s.ibufDepthPred.val + 1

/-! ### Registers -/

/-- The names of the filter cells (R20). -/
inductive CellName where
  | s0 | s1 | s2 | s3 | s4 | s5
deriving DecidableEq, Repr

/-- The names of the coefficient registers (R23). -/
inductive CoefName where
  | a0e | a1e | a0o | a1o | n0 | n1 | n2 | n3
deriving DecidableEq, Repr

/-- Reads a cell (R14, R20). -/
def Cells.get (c : Cells) : CellName → Word
  | .s0 => c.s0
  | .s1 => c.s1
  | .s2 => c.s2
  | .s3 => c.s3
  | .s4 => c.s4
  | .s5 => c.s5

/-- Writes a cell (R14, R20). -/
def Cells.set (c : Cells) (n : CellName) (w : Word) : Cells :=
  match n with
  | .s0 => { c with s0 := w }
  | .s1 => { c with s1 := w }
  | .s2 => { c with s2 := w }
  | .s3 => { c with s3 := w }
  | .s4 => { c with s4 := w }
  | .s5 => { c with s5 := w }

/-- All six cells 0 (R171). -/
def Cells.zero : Cells := ⟨0, 0, 0, 0, 0, 0⟩

/-- Reads a coefficient register (R23). -/
def Coefs.get (c : Coefs) : CoefName → Half
  | .a0e => c.a0e
  | .a1e => c.a1e
  | .a0o => c.a0o
  | .a1o => c.a1o
  | .n0 => c.n0
  | .n1 => c.n1
  | .n2 => c.n2
  | .n3 => c.n3

/-- Writes a coefficient register (R23). -/
def Coefs.set (c : Coefs) (n : CoefName) (h : Half) : Coefs :=
  match n with
  | .a0e => { c with a0e := h }
  | .a1e => { c with a1e := h }
  | .a0o => { c with a0o := h }
  | .a1o => { c with a1o := h }
  | .n0 => { c with n0 := h }
  | .n1 => { c with n1 := h }
  | .n2 => { c with n2 := h }
  | .n3 => { c with n3 := h }

/-- `RES <- r`, recording whether the primitive wrapped (R109). -/
def State.writeRes (r : Word) (wrapped : Bool) (s : State) : State :=
  { s.markWrapped wrapped with res := r }

/-! ### Errors -/

/-- `raise Error(code)`: the first error since the last clear is kept (R182, R187). There is no vector,
no saved state and no mode to change (R180, R190). -/
def State.raiseError (code : ErrCode) (s : State) : State :=
  { s with errcause := if s.errcause = .none then code else s.errcause }

/-- The host's clear of the record, the analogue of trap return (R186). -/
def State.clearError (s : State) : State := { s with errcause := .none }

/-- A rejected command: the error record and, for `CFG_INVALID`, `CFGV <- 0` (R181 check 4, R182). -/
def State.reject (code : ErrCode) (s : State) : State :=
  { s with cfgv := if code = ErrCode.cfgInvalid then false else s.cfgv }.raiseError code

/-! ### A command's life (R71) -/

/-- What every write to `CMD` that passed the bus checks does first: `DONE <- 0` (R35, R71). -/
def State.beginCommand (s : State) : State := { s with done := false }

/-- Acceptance: `BUSY <- 1`, `OVF_PEND <- 0`, the word latched, the sequencer at its first position
(R34, R43, R44, R45, R71). R43 states the first position of `PROCESS` only; every other command starting at
`k = 0`, `EVEN` too is the model's choice. DESIGN CHOICE (log 20), safe: not observable. -/
def State.accept (i : Instr) (s : State) : State := { s with seq := .run i 0 .even, ovfPend := false }

/-- Completion: `OVF` folded, `DONE <- 1`, `BUSY <- 0`, `seq <- IDLE` (R37, R71). -/
def State.complete (s : State) : State :=
  { s with ovf := s.ovf || s.ovfPend, done := true, seq := .idle }

/-- Checks 2 to 4 of R181, in their order; check 1 is the decoder's. -/
def commandError (i : Instr) (s : State) : Option ErrCode :=
  match i with
  | .nop => none
  | .process n =>
    if s.cfgv = false then some .cmdNotCfg
    else if s.ibufDepth < n then some .cmdBadLen
    else none
  | .step => if s.cfgv = false then some .cmdNotCfg else none
  | .clearState => none
  | .cfgCommit => if s.coefs.ok = false then some .cfgInvalid else none
  | .toFixed => none
  | .smul => none
  | .smla => none
  | .asr => none
  | .sat16 => none
  | .add32 => none
  | .sub32 => none
  | .gain => none

/-- A command written to `CMD` up to its acceptance or rejection (R71, R181). -/
def State.issue (i : Instr) (s : State) : State :=
  match commandError i s with
  | some code => s.beginCommand.reject code
  | none => s.beginCommand.accept i

/-- A command as one atomic transition (R61, R71): checked, then rejected, or accepted, run by `body`
to its end and completed. -/
def State.runCommand (i : Instr) (body : State → State) (s : State) : State :=
  match commandError i s with
  | some code => s.beginCommand.reject code
  | none => (body (s.beginCommand.accept i)).complete

/-! ### Reset -/

/-- The reset event: every piece of the core's state takes its reset value, also while a command runs
(R210, R211), and the buffers' contents are free draws afresh (R42). The host, the values it has read
and the parameter `IBUF_DEPTH` are not the core's to reset (log 13). -/
def State.resetEvent (s : State) : State :=
  { State.resetAt s.ibufDepthPred with
    host := s.host, reads := s.reads, epoch := s.epoch + 1, draws := s.draws }

end Sys2Proof.Machine
end

