-- ==== Sys2Proof/Machine/Bus.lean ====
section
/-! DEFINITION. Host bus accesses: the address map, the bus checks, and what each read and write does
(20_memory R50 to R59, 10_state R23 to R41, 60_exceptions R184). -/

namespace Sys2Proof.Machine

/-- A mapped location of the window (R52). -/
inductive Loc where
  | id
  | cmd
  | status
  | errcause
  | opa
  | opb
  | opc
  | res
  | coef (n : CoefName)
  | cell (n : CellName)
  | caps
  | ibuf (k : Nat)
  | obuf (j : Nat)
deriving DecidableEq, Repr

/-- The location at an aligned offset below `0x1000` (R52); the rest is reserved (R53). -/
def locateRegister (off : Nat) : Option Loc :=
  match off with
  | 0x000 => some .id
  | 0x004 => some .cmd
  | 0x008 => some .status
  | 0x00C => some .errcause
  | 0x010 => some .opa
  | 0x014 => some .opb
  | 0x018 => some .opc
  | 0x01C => some .res
  | 0x020 => some (.coef .a0e)
  | 0x024 => some (.coef .a1e)
  | 0x028 => some (.coef .a0o)
  | 0x02C => some (.coef .a1o)
  | 0x030 => some (.coef .n0)
  | 0x034 => some (.coef .n1)
  | 0x038 => some (.coef .n2)
  | 0x03C => some (.coef .n3)
  | 0x040 => some (.cell .s0)
  | 0x044 => some (.cell .s1)
  | 0x048 => some (.cell .s2)
  | 0x04C => some (.cell .s3)
  | 0x050 => some (.cell .s4)
  | 0x054 => some (.cell .s5)
  | 0x058 => some .caps
  | _ => none

/-- The location at an aligned window offset, for buffers of `depth` and `2 * depth` words; `none` at a
reserved offset (R52, R53). -/
def locate (depth off : Nat) : Option Loc :=
  if off < 0x1000 then locateRegister off
  else if off < 0x2000 then
    if (off - 0x1000) / 4 < depth then some (.ibuf ((off - 0x1000) / 4)) else none
  else
    if (off - 0x2000) / 4 < 2 * depth then some (.obuf ((off - 0x2000) / 4)) else none

/-- The locations a host may read while `BUSY = 1` (R59). -/
def Loc.readableBusy : Loc → Bool
  | .id => true
  | .cmd => true
  | .status => true
  | .errcause => true
  | .caps => true
  | .opa => false
  | .opb => false
  | .opc => false
  | .res => false
  | .coef _ => false
  | .cell _ => false
  | .ibuf _ => false
  | .obuf _ => false

/-- The locations a host may write while `BUSY = 1` (R59). -/
def Loc.writableBusy (l : Loc) : Bool := decide (l = .status) || decide (l = .errcause)

/-- The locations a write to which raises `BUS_READONLY` (R183). -/
def Loc.readOnly (l : Loc) : Bool := decide (l = .id) || decide (l = .res) || decide (l = .caps)

/-- Whether an access reads or writes. -/
inductive Access where
  | read
  | write
deriving DecidableEq, Repr

/-- What the bus checks answer: the location reached, or the error raised. -/
inductive Checked where
  | reaches (l : Loc)
  | refused (code : ErrCode)
deriving DecidableEq, Repr

/-- An access of 32 bits at a multiple of 4 (R54). -/
def wordAccess (bits : Nat) (off : BitVec 14) : Bool := decide (bits = 32) && decide (off.toNat % 4 = 0)

/-- The access is not allowed at `l` while a command runs (R59). -/
def Loc.blocked (l : Loc) (a : Access) (busy : Bool) : Bool :=
  busy &&
    match a with
    | .read => !l.readableBusy
    | .write => !l.writableBusy

/-- The write is to a read-only location (R184 check 4). -/
def Loc.denied (l : Loc) (a : Access) : Bool :=
  match a with
  | .read => false
  | .write => l.readOnly

/-- The bus checks, in the order of R184: width and alignment, mapped, busy, read-only. -/
def busCheck (a : Access) (bits : Nat) (off : BitVec 14) (s : State) : Checked :=
  if wordAccess bits off then
    match locate s.ibufDepth off.toNat with
    | none => .refused .busUnmapped
    | some l =>
      if l.blocked a s.busy then .refused .busBusy
      else if l.denied a then .refused .busReadonly
      else .reaches l
  else .refused .busSubword

/-- The word a read of a location returns; reads change nothing (R58). -/
def State.readLoc (s : State) : Loc → Word
  | .id => Config.idValue
  | .cmd => 0
  | .status => s.statusWord
  | .errcause => BitVec.ofNat 32 s.errcause.toNat
  | .opa => s.opa
  | .opb => s.opb
  | .opc => s.opc
  | .res => s.res
  | .coef n => sext16 (s.coefs.get n)
  | .cell n => s.cells.get n
  | .caps => BitVec.ofNat 32 s.ibufDepth
  | .ibuf k => sext16 (s.ibuf k)
  | .obuf j => sext16 (s.obuf j)

/-- A write of `w` to `STATUS`: bit 1 clears `DONE`, bit 3 clears `OVF`, all else is ignored (R33). -/
def State.writeStatus (w : Word) (s : State) : State :=
  { s with done := s.done && !bit w 1, ovf := s.ovf && !bit w 3 }

/-- A write of `w` to a location that passed the bus checks. `ID`, `RES` and `CAPS` are never reached
(R184 check 4); a write to `CMD` stores nothing (R32), its command is run by the step. -/
def State.writeLoc (l : Loc) (w : Word) (s : State) : State :=
  match l with
  | .id => s
  | .cmd => s
  | .status => s.writeStatus w
  | .errcause => s.clearError
  | .opa => { s with opa := w }
  | .opb => { s with opb := w }
  | .opc => { s with opc := w }
  | .res => s
  | .coef n => { s with coefs := s.coefs.set n (lowHalf w), cfgv := false }
  | .cell n => { s with cells := s.cells.set n w }
  | .caps => s
  | .ibuf k => s.setIbuf k (lowHalf w)
  | .obuf j => s.setObuf j (lowHalf w)

/-- The value of a read is delivered to the host (R58, R182; log 5). -/
def State.answer (w : Word) (s : State) : State := { s with reads := s.reads ++ [w] }

/-- A host read: the location's word, or 0 with the error recorded (R58, R182). -/
def busRead (bits : Nat) (off : BitVec 14) (s : State) : State :=
  match busCheck .read bits off s with
  | .reaches l => s.answer (s.readLoc l)
  | .refused code => (s.raiseError code).answer 0

/-- What serving a host event leaves to be done: nothing, or a word written to `CMD` (R71). -/
inductive Served where
  | done (s : State)
  | command (w : Word) (s : State)
deriving DecidableEq, Repr

/-- A host write: the location written, a command issued, or the error recorded and nothing else
changed (R58, R182, R184). -/
def busWrite (bits : Nat) (off : BitVec 14) (w : Word) (s : State) : Served :=
  match busCheck .write bits off s with
  | .reaches .cmd => .command w s
  | .reaches l => .done (s.writeLoc l w)
  | .refused code => .done (s.raiseError code)

/-- One poll of `wait`: a read of `STATUS`, repeated while it returns `BUSY = 1` (R77; log 15). -/
def pollStatus (s : State) : State :=
  let t := s.answer s.statusWord
  if s.busy then { t with host := .wait :: s.host } else t

/-- One event from outside the core, already taken off the list. -/
def serve (e : HostEvent) (s : State) : Served :=
  match e with
  | .read bits off => .done (busRead bits off s)
  | .write bits off w => busWrite bits off w s
  | .wait => .done (pollStatus s)
  | .reset => .done s.resetEvent

/-! ### The platform's side of the window -/

/-- The window offset of a platform address; `none` outside the window, where the platform, not the
core, answers (R50, R52; log 9). -/
def windowOffset (addr : Nat) : Option (BitVec 14) :=
  if Config.base ≤ addr ∧ addr < Config.base + 16384 then some (BitVec.ofNat 14 (addr - Config.base)) else none

/-- `MemRead(addr, bytes)`: the event it is for the core, if it reaches the core (R14, R50). -/
def memRead (addr bytes : Nat) : Option HostEvent :=
  (windowOffset addr).map fun off => .read (8 * bytes) off

/-- `MemWrite(addr, bytes, w)`: the event it is for the core, if it reaches the core (R14, R50). -/
def memWrite (addr bytes : Nat) (w : Word) : Option HostEvent :=
  (windowOffset addr).map fun off => .write (8 * bytes) off w

end Sys2Proof.Machine
end

