-- ==== Sys2Proof/Machine/Control.lean ====
section
/-! DEFINITION. The setup commands (44_control R170 to R172). -/

namespace Sys2Proof.Machine

/-- The effect of `NOP`: none of its own (R170). -/
def nopBody (s : State) : State := s

/-- `NOP` (R170). -/
def execNop (s : State) : Host.Outcome State Fault Refusal := .next (s.runCommand .nop nopBody)

/-- The effect of `CLEAR_STATE`: the six cells to 0 (R171). -/
def clearStateBody (s : State) : State := { s with cells := Cells.zero }

/-- `CLEAR_STATE` (R171). -/
def execClearState (s : State) : Host.Outcome State Fault Refusal :=
  .next (s.runCommand .clearState clearStateBody)

/-- The effect of an accepted `CFG_COMMIT`: `CFGV <- 1` (R172). -/
def cfgCommitBody (s : State) : State := { s with cfgv := true }

/-- `CFG_COMMIT` (R172). -/
def execCfgCommit (s : State) : Host.Outcome State Fault Refusal :=
  .next (s.runCommand .cfgCommit cfgCommitBody)

end Sys2Proof.Machine
end

