-- ==== Sys2Proof/Machine/Allpass.lean ====
section
/-! DEFINITION. The allpass cascade (41_allpass R130 to R132). The functions are total for any
coefficients (R135). -/

namespace Sys2Proof.Machine

/-- What the first section hands on (R130). -/
structure FirstSection where
  out1 : Word
  sA : Word
  wrapped : Bool
deriving DecidableEq, Repr

/-- What a whole allpass phase gives: the output and the phase's two new cells (R131, R132). -/
structure AllpassResult where
  out2 : Word
  sA : Word
  sB : Word
  wrapped : Bool
deriving DecidableEq, Repr

/-- First allpass section (R130). -/
def allpassFirst (v sA : Word) (a0 : Half) : FirstSection :=
  let y := sub32 v sA
  let x := smul y a0
  { out1 := add32 sA x
    sA := add32 v x
    wrapped := subWraps v sA || addWraps sA x || addWraps v x }

/-- Second allpass section, run on what the first gave (R131). -/
def allpassSecond (f : FirstSection) (sB : Word) (a1 : Half) : AllpassResult :=
  let y2 := sub32 f.out1 sB
  let x2 := smla y2 y2 a1
  { out2 := add32 sB x2
    sA := f.sA
    sB := add32 f.out1 x2
    wrapped := f.wrapped || subWraps f.out1 sB || smlaWraps y2 y2 a1 || addWraps sB x2 || addWraps f.out1 x2 }

/-- The allpass phase function `AP(v, sA, sB, a0, a1)` (R132). -/
def allpass (v sA sB : Word) (a0 a1 : Half) : AllpassResult :=
  allpassSecond (allpassFirst v sA a0) sB a1

end Sys2Proof.Machine
end

