-- ==== Sys2Proof/Machine/Notch.lean ====
section
/-! DEFINITION. The shared notch filter: two roles over two cells (42_notch R140 to R142). -/

namespace Sys2Proof.Machine

/-- What a notch evaluation gives: the pre-gain value and the new value of the role's own cell. -/
structure NotchResult where
  pre : Word
  cell : Word
  wrapped : Bool
deriving DecidableEq, Repr

/-- One evaluation with the role's own cell `own` (updated) and the other cell `other` (read only). -/
def notchRole (out2 own other : Word) (c : Coefs) : NotchResult :=
  let acc1 := smla out2 own c.n2
  let acc2 := smla acc1 other c.n1
  { pre := smla acc2 other c.n0
    cell := sub32 acc2 own
    wrapped := smlaWraps out2 own c.n2 || smlaWraps acc1 other c.n1 || smlaWraps acc2 other c.n0
      || subWraps acc2 own }

/-- Notch, even role: reads `S[4]`, updates `S[5]` (R140). -/
def notchEven (out2 s4 s5 : Word) (c : Coefs) : NotchResult := notchRole out2 s5 s4 c

/-- Notch, odd role: reads `S[5]`, updates `S[4]`; the even role with the cells exchanged (R141). -/
def notchOdd (out2 s4 s5 : Word) (c : Coefs) : NotchResult := notchRole out2 s4 s5 c

end Sys2Proof.Machine
end

