-- ==== Sys2Proof/Machine/Filter.lean ====
section
/-! DEFINITION. The sample step, the block function and the filter commands `PROCESS` and `STEP`
(43_orchestration R150 to R153). -/

namespace Sys2Proof.Machine

/-- What one phase gives: the cells after it, its output sample, whether a primitive wrapped. -/
structure PhaseResult where
  cells : Cells
  y : Half
  wrapped : Bool
deriving DecidableEq, Repr

/-- The even phase of a sample step: allpass on `S[0], S[1]`, even notch role, output stage (R133,
R140, R143, R150). -/
def evenPhase (c : Coefs) (m : Cells) (v : Word) : PhaseResult :=
  let a := allpass v m.s0 m.s1 c.a0e c.a1e
  let n := notchEven a.out2 m.s4 m.s5 c
  { cells := { m with s0 := a.sA, s1 := a.sB, s5 := n.cell }
    y := gain n.pre c.n3
    wrapped := a.wrapped || n.wrapped || gainWraps n.pre c.n3 }

/-- The odd phase of a sample step: allpass on `S[2], S[3]`, odd notch role, output stage (R134, R141,
R143, R150). `m` is the cells as the even phase left them (R142). -/
def oddPhase (c : Coefs) (m : Cells) (v : Word) : PhaseResult :=
  let a := allpass v m.s2 m.s3 c.a0o c.a1o
  let n := notchOdd a.out2 m.s4 m.s5 c
  { cells := { m with s2 := a.sA, s3 := a.sB, s4 := n.cell }
    y := gain n.pre c.n3
    wrapped := a.wrapped || n.wrapped || gainWraps n.pre c.n3 }

/-- What a sample step gives: the cells after it, both outputs, whether a primitive wrapped. -/
structure SampleResult where
  cells : Cells
  yE : Half
  yO : Half
  wrapped : Bool
deriving DecidableEq, Repr

/-- The sample step `SS(s)`: the even phase whole, then the odd phase on the cells it left (R150). -/
def sampleStep (c : Coefs) (m : Cells) (s : Half) : SampleResult :=
  let v := toFixed s
  let e := evenPhase c m v
  let o := oddPhase c e.cells v
  { cells := o.cells, yE := e.y, yO := o.y, wrapped := e.wrapped || o.wrapped }

/-- What the block function gives: the cells it leaves, its outputs in order, whether a primitive
wrapped. -/
structure BlockResult where
  cells : Cells
  out : List Half
  wrapped : Bool
deriving DecidableEq, Repr

/-- The block function of R151: one sample step per input in order, even output before odd. -/
def blockFilter (c : Coefs) (m : Cells) : List Half → BlockResult
  | [] => { cells := m, out := [], wrapped := false }
  | x :: xs =>
    let r := sampleStep c m x
    let rest := blockFilter c r.cells xs
    { cells := rest.cells, out := r.yE :: r.yO :: rest.out, wrapped := r.wrapped || rest.wrapped }

/-! ### PROCESS -/

/-- One turn of the loop of R152 for input sample `k`. -/
def processSample (k : Nat) (s : State) : State :=
  let r := sampleStep s.coefs s.cells (s.ibuf k)
  { ((s.setObuf (2 * k) r.yE).setObuf (2 * k + 1) r.yO).markWrapped r.wrapped with cells := r.cells }

/-- The loop of R152 from sample `k` on, `left` samples to go. -/
def processLoop : (left k : Nat) → State → State
  | 0, _, s => s
  | left + 1, k, s => processLoop left (k + 1) (processSample k s)

/-- `PROCESS N` (R152). -/
def execProcess (n : Nat) (s : State) : Host.Outcome State Fault Refusal :=
  .next (s.runCommand (.process n) (processLoop n 0))

/-! ### STEP -/

/-- The effect of `STEP`: one sample step from `OPA[15:0]` into `RES` (R153). -/
def stepBody (s : State) : State :=
  let r := sampleStep s.coefs s.cells s.sampleOperand
  { s.writeRes (pack16 r.yO r.yE) r.wrapped with cells := r.cells }

/-- `STEP` (R153). -/
def execStep (s : State) : Host.Outcome State Fault Refusal := .next (s.runCommand .step stepBody)

end Sys2Proof.Machine
end

