-- ==== Sys2Proof/Machine/Primitives.lean ====
section
/-! DEFINITION. The primitive commands (40_primitives R109 to R116, 42_notch R144): each writes `RES`
and records a wrap. -/

namespace Sys2Proof.Machine

/-- The effect of `TOFIXED` (R110). -/
def toFixedBody (s : State) : State := s.writeRes (toFixed s.sampleOperand) false

/-- `TOFIXED` (R110). -/
def execToFixed (s : State) : Host.Outcome State Fault Refusal :=
  .next (s.runCommand .toFixed toFixedBody)

/-- The effect of `SMUL` (R111). -/
def smulBody (s : State) : State := s.writeRes (smul s.opa s.smulCoef) false

/-- `SMUL` (R111). -/
def execSmul (s : State) : Host.Outcome State Fault Refusal := .next (s.runCommand .smul smulBody)

/-- The effect of `SMLA` (R112). -/
def smlaBody (s : State) : State :=
  s.writeRes (smla s.opa s.opb s.smlaCoef) (smlaWraps s.opa s.opb s.smlaCoef)

/-- `SMLA` (R112). -/
def execSmla (s : State) : Host.Outcome State Fault Refusal := .next (s.runCommand .smla smlaBody)

/-- The effect of `ASR` (R113). -/
def asrBody (s : State) : State := s.writeRes (asr s.opa s.shiftAmount) false

/-- `ASR` (R113). -/
def execAsr (s : State) : Host.Outcome State Fault Refusal := .next (s.runCommand .asr asrBody)

/-- The effect of `SAT16`: the 16-bit result sign-extended (R114). -/
def sat16Body (s : State) : State := s.writeRes (sext16 (sat16 s.opa)) false

/-- `SAT16` (R114). -/
def execSat16 (s : State) : Host.Outcome State Fault Refusal := .next (s.runCommand .sat16 sat16Body)

/-- The effect of `ADD32` (R115). -/
def add32Body (s : State) : State := s.writeRes (add32 s.opa s.opb) (addWraps s.opa s.opb)

/-- `ADD32` (R115). -/
def execAdd32 (s : State) : Host.Outcome State Fault Refusal := .next (s.runCommand .add32 add32Body)

/-- The effect of `SUB32` (R116). -/
def sub32Body (s : State) : State := s.writeRes (sub32 s.opa s.opb) (subWraps s.opa s.opb)

/-- `SUB32` (R116). -/
def execSub32 (s : State) : Host.Outcome State Fault Refusal := .next (s.runCommand .sub32 sub32Body)

/-- The effect of `GAIN`: the output stage with the register `N3`, sign-extended (R144). -/
def gainBody (s : State) : State :=
  s.writeRes (sext16 (gain s.opa s.gainOperand)) (gainWraps s.opa s.gainOperand)

/-- `GAIN` (R144). -/
def execGain (s : State) : Host.Outcome State Fault Refusal := .next (s.runCommand .gain gainBody)

end Sys2Proof.Machine
end

