-- ==== Sys2Proof/Machine/Dispatch.lean ====
section
/-! DEFINITION. The meaning of each command, one arm per constructor of `Instr`: the write of the command
to `CMD` by an idle core, as one atomic transition (R61, R71; log 12). -/

namespace Sys2Proof.Machine

def exec (i : Instr) (s : State) : Host.Outcome State Fault Refusal :=
  match i with
  | .nop => Sys2Proof.Machine.execNop s
  | .process n => Sys2Proof.Machine.execProcess n s
  | .step => Sys2Proof.Machine.execStep s
  | .clearState => Sys2Proof.Machine.execClearState s
  | .cfgCommit => Sys2Proof.Machine.execCfgCommit s
  | .toFixed => Sys2Proof.Machine.execToFixed s
  | .smul => Sys2Proof.Machine.execSmul s
  | .smla => Sys2Proof.Machine.execSmla s
  | .asr => Sys2Proof.Machine.execAsr s
  | .sat16 => Sys2Proof.Machine.execSat16 s
  | .add32 => Sys2Proof.Machine.execAdd32 s
  | .sub32 => Sys2Proof.Machine.execSub32 s
  | .gain => Sys2Proof.Machine.execGain s

end Sys2Proof.Machine
end

