-- ==== Sys2Proof/Machine/Sequencer.lean ====
section
/-! DEFINITION. The sequencer's own turns while a command runs (10_state R43, 43_orchestration R154):
the same command as `exec`, one position at a time, so that host accesses and a reset can land in
between (20_memory R59, 70_reset R211). -/

namespace Sys2Proof.Machine

/-- `PROCESS`, even phase of sample `k`: `IBUF[k]` is read, `OBUF[2k]` written (R154). -/
def processEven (n k : Nat) (s : State) : State :=
  let v := toFixed (s.ibuf k)
  let p := evenPhase s.coefs s.cells v
  { (s.setObuf (2 * k) p.y).markWrapped p.wrapped with
    cells := p.cells, seq := .run (.process n) k (.odd v p.y) }

/-- `PROCESS`, odd phase of sample `k`: `OBUF[2k+1]` is written (R154). -/
def processOdd (n k : Nat) (v : Word) (s : State) : State :=
  let p := oddPhase s.coefs s.cells v
  { (s.setObuf (2 * k + 1) p.y).markWrapped p.wrapped with
    cells := p.cells, seq := .run (.process n) (k + 1) .even }

/-- One turn of `PROCESS N`: a phase while `k < N`, completion at `k = N` (R43, R154). -/
def processTurn (n k : Nat) (phase : Phase) (s : State) : State :=
  match phase with
  | .even => if k < n then processEven n k s else s.complete
  | .odd v _ => processOdd n k v s

/-- One turn of `STEP`: the even phase, then the odd phase with `RES` and the completion (R43, R153). That
`k` stays 0 and the position between the phases is `ODD` is the model's choice (log 20). -/
def stepTurn (k : Nat) (phase : Phase) (s : State) : State :=
  match phase with
  | .even =>
    let v := toFixed s.sampleOperand
    let p := evenPhase s.coefs s.cells v
    { s.markWrapped p.wrapped with cells := p.cells, seq := .run .step k (.odd v p.y) }
  | .odd v yE =>
    let p := oddPhase s.coefs s.cells v
    { s.writeRes (pack16 p.y yE) p.wrapped with cells := p.cells }.complete

/-- One turn of the running command; every command but `PROCESS` and `STEP` completes in one (R43). -/
def commandTurn (cmd : Instr) (k : Nat) (phase : Phase) (s : State) : State :=
  match cmd with
  | .nop => (nopBody s).complete
  | .process n => processTurn n k phase s
  | .step => stepTurn k phase s
  | .clearState => (clearStateBody s).complete
  | .cfgCommit => (cfgCommitBody s).complete
  | .toFixed => (toFixedBody s).complete
  | .smul => (smulBody s).complete
  | .smla => (smlaBody s).complete
  | .asr => (asrBody s).complete
  | .sat16 => (sat16Body s).complete
  | .add32 => (add32Body s).complete
  | .sub32 => (sub32Body s).complete
  | .gain => (gainBody s).complete

/-- The sequencer's turn: nothing when idle (R196), else one turn of the latched command (R45). -/
def advance (s : State) : State :=
  match s.seq with
  | .idle => s
  | .run cmd k phase => commandTurn cmd k phase s

/-- `n` turns of the sequencer with no host access between them. -/
def advanceTimes : Nat → State → State
  | 0, s => s
  | n + 1, s => advanceTimes n (advance s)

/-- How many turns of the sequencer are left at a position until it is `IDLE` (R43, R154; log 17, and for
the positions of the commands other than `PROCESS` log 20). -/
def Seq.turnsLeft : Seq → Nat
  | .idle => 0
  | .run (.process n) k .even => 2 * (n - k) + 1
  | .run (.process n) k (.odd _ _) => 2 * (n - (k + 1)) + 2
  | .run .step _ .even => 2
  | .run _ _ _ => 1

end Sys2Proof.Machine
end

