-- ==== Sys2Proof/Machine/Issue.lean ====
section
/-! DEFINITION. A word written to `CMD` (30_encoding R71, 60_exceptions R181), and whose turn it is while
a command runs (00_scope R9 `LATENCY`, 70_reset R222). -/

namespace Sys2Proof.Machine

/-- A word written to `CMD` by a host write that passed the bus checks (R71). An illegal word is refused
(R181 check 1). A command runs to its end as `exec` says when no host access lands while it is busy
(`turns = 0`, or the host has none to make); else it is issued, and `turns` host turns land before the
sequencer's first (log 6). -/
def commandWrite (turns : Nat) (w : Word) (s : State) : Host.Outcome State Fault Refusal :=
  match decode w with
  | .illegal _ => .next (s.beginCommand.reject .cmdIllegal)
  | .command i =>
    if s.host.isEmpty || turns == 0 then exec i s
    else .next { s.issue i with slack := turns }

/-- A host event is served; `turns` is the latency draw a command written by it takes. -/
def hostTurn (turns : Nat) (e : HostEvent) (s : State) : Host.Outcome State Fault Refusal :=
  match serve e s with
  | .done t => .next t
  | .command w t => commandWrite turns w t

/-- The next event `e` waits, `rest` behind it. An idle core serves it. While a command runs, `slack` host
turns land, then the sequencer takes a turn and a new draw says how many land before its next
(R222; log 6). -/
def contend (turns : Nat) (e : HostEvent) (rest : List HostEvent) (s : State) :
    Host.Outcome State Fault Refusal :=
  if s.busy then
    match s.slack with
    | 0 => .next (advance { s with slack := turns, draws := s.draws + 1 })
    | n + 1 => hostTurn turns e { s with host := rest, slack := n }
  else hostTurn turns e { s with host := rest, draws := s.draws + 1 }

/-- The offset of `CMD` in the window (R32, R52). -/
def cmdOffset : BitVec 14 := 0x004

end Sys2Proof.Machine
end

