-- ==== Sys2Proof/Machine/Step.lean ====
section
/-! DEFINITION. One step of the core and its host (20_memory R58, R61, 70_reset R222). -/

namespace Sys2Proof.Machine

/-- One step. With no host event waiting the sequencer takes its turn (an idle core keeps its state,
R196); else the event and the sequencer contend, with the latency draw of R222 as a free value. -/
def step (s : State) : Host.Outcome State Fault Refusal :=
  match s.host with
  | [] => .next (advance s)
  | e :: rest => contend (Config.hostTurns s.draws) e rest s

/-- `s` with the core idle and one host event waiting: the aligned 32-bit write to `CMD` of the
instruction whose `nbits` bits are `w`. The core fetches no instruction (R64): a command acts when it is
written to `CMD` (R71), so that write is where the next command comes from (log 5). -/
def State.withFetchWord (s : State) (nbits w : Nat) : State :=
  { s with seq := .idle, host := [.write 32 cmdOffset (BitVec.ofNat 32 (w % 2 ^ nbits))] }

end Sys2Proof.Machine
end

