-- ==== Sys2Proof/Machine/HostProgram.lean ====
section
/-! DEFINITION. The host-side notation of 30_encoding R76 and R77: each line as the bus accesses it
stands for, as events of `State.host`. -/

namespace Sys2Proof.Machine

/-- The offset of a mapped location in the window (R52). -/
def Loc.offset : Loc → Nat
  | .id => 0x000
  | .cmd => 0x004
  | .status => 0x008
  | .errcause => 0x00C
  | .opa => 0x010
  | .opb => 0x014
  | .opc => 0x018
  | .res => 0x01C
  | .coef .a0e => 0x020
  | .coef .a1e => 0x024
  | .coef .a0o => 0x028
  | .coef .a1o => 0x02C
  | .coef .n0 => 0x030
  | .coef .n1 => 0x034
  | .coef .n2 => 0x038
  | .coef .n3 => 0x03C
  | .cell .s0 => 0x040
  | .cell .s1 => 0x044
  | .cell .s2 => 0x048
  | .cell .s3 => 0x04C
  | .cell .s4 => 0x050
  | .cell .s5 => 0x054
  | .caps => 0x058
  | .ibuf k => ibufAddr k
  | .obuf j => obufAddr j

/-- `wr L, v` (R76). -/
def wr (l : Loc) (v : Int) : HostEvent := .write 32 (BitVec.ofNat 14 l.offset) (BitVec.ofInt 32 v)

/-- `rd L` (R76). -/
def rd (l : Loc) : HostEvent := .read 32 (BitVec.ofNat 14 l.offset)

/-- `cmd M` and `cmd PROCESS, N` (R77). -/
def cmd (i : Instr) : HostEvent := .write 32 (BitVec.ofNat 14 Loc.cmd.offset) (encode i)

/-- `setcoef a0e, a1e, a0o, a1o, n0, n1, n2, n3`: eight writes, in register order (R77). -/
def setcoef (a0e a1e a0o a1o n0 n1 n2 n3 : Int) : List HostEvent :=
  [wr (.coef .a0e) a0e, wr (.coef .a1e) a1e, wr (.coef .a0o) a0o, wr (.coef .a1o) a1o,
   wr (.coef .n0) n0, wr (.coef .n1) n1, wr (.coef .n2) n2, wr (.coef .n3) n3]

/-- `setstate s0, ..., s5` (R77). -/
def setstate (s0 s1 s2 s3 s4 s5 : Int) : List HostEvent :=
  [wr (.cell .s0) s0, wr (.cell .s1) s1, wr (.cell .s2) s2, wr (.cell .s3) s3, wr (.cell .s4) s4,
   wr (.cell .s5) s5]

/-- `clrerr` (R77). -/
def clrerr : HostEvent := wr .errcause 0

/-- `clrsts`: clears `DONE` and `OVF` (R77). -/
def clrsts : HostEvent := wr .status 0x0000000A

end Sys2Proof.Machine
end

