-- ==== Sys2Proof/Safety.lean ====
section
/-! DEFINITION. What a legal state of the core is, in the terms the statements use: an invariant that
every step is meant to keep. -/

namespace Sys2Proof.Machine

/-- `a` is a byte lane of an `IBUF` or `OBUF` word of a core of this depth (R40, R41, R52). -/
def isBufferByte (depth a : Nat) : Prop :=
  a % 4 < 2 ∧ (0x1000 ≤ a ∧ a < 0x1000 + 4 * depth ∨ 0x2000 ≤ a ∧ a < 0x2000 + 8 * depth)

/-- The buffer memory is in its canonical form and lists nothing but bytes of buffer words (log 4). -/
def State.memoryLegal (s : State) : Prop :=
  Memory.wf s.mem ∧ ∀ p ∈ s.mem, isBufferByte s.ibufDepth p.1

/-- `CFGV = 1` only with a coefficient set whose allpass pairs have the right signs (R24, R36, R173). -/
def State.configLegal (s : State) : Prop := s.cfgv = true → s.coefs.ok = true

/-- The positions a running command can be at (R43, R154): within its samples, for `PROCESS` within the
buffers, the filter commands and `CFG_COMMIT` only as their checks allow (R181), and at an odd phase with
the `v` of the same input sample (R134, R150; log 8). `k = 0`, and `EVEN` for the one-step commands, is the
model's choice for the commands other than `PROCESS` (log 20). -/
def State.positionLegal (s : State) : Prop :=
  match s.seq with
  | .idle => True
  | .run (.process n) k .even => s.cfgv = true ∧ k ≤ n ∧ n ≤ s.ibufDepth
  | .run (.process n) k (.odd v _) =>
    s.cfgv = true ∧ k < n ∧ n ≤ s.ibufDepth ∧ v = toFixed (s.ibuf k)
  | .run .step k .even => s.cfgv = true ∧ k = 0
  | .run .step k (.odd v _) => s.cfgv = true ∧ k = 0 ∧ v = toFixed s.sampleOperand
  | .run .cfgCommit k phase => s.coefs.ok = true ∧ k = 0 ∧ phase = .even
  | .run _ k phase => k = 0 ∧ phase = .even

/-- `DONE = 0` while a command runs (R35). -/
def State.doneLegal (s : State) : Prop := s.busy = true → s.done = false

/-- A legal state: the four together. -/
structure State.Legal (s : State) : Prop where
  memory : s.memoryLegal
  config : s.configLegal
  position : s.positionLegal
  done : s.doneLegal

/-- What a command that was rejected with `code` leaves (R182): `DONE = 0`, the error record, for
`CFG_INVALID` also `CFGV = 0`, and nothing else changed. -/
def State.rejected (s : State) (code : ErrCode) : State :=
  { s with
    done := false
    cfgv := if code = .cfgInvalid then false else s.cfgv
    errcause := if s.errcause = .none then code else s.errcause }

/-- What a command that completed leaves when it changed nothing of its own (R71): `DONE = 1`, `BUSY = 0`,
`OVF_PEND` whether a primitive wrapped, and that folded into `OVF` (R37). -/
def State.completed (s : State) (wrapped : Bool) : State :=
  { s with done := true, ovf := s.ovf || wrapped, ovfPend := wrapped, seq := .idle }

/-- The locations of the map of a core of this depth: the registers, and the buffer words that exist
(R52). -/
def Loc.mapped (depth : Nat) : Loc → Prop
  | .ibuf k => k < depth
  | .obuf j => j < 2 * depth
  | _ => True

/-- The first event waiting is an aligned 32-bit write of `w` to offset `off`. -/
def State.nextWrites (s : State) (off : BitVec 14) (w : Word) : Prop :=
  ∃ rest, s.host = .write 32 off w :: rest

/-- The first event waiting is the reset input. -/
def State.nextResets (s : State) : Prop := ∃ rest, s.host = .reset :: rest

end Sys2Proof.Machine
end

