-- ==== Sys2Proof/Certificates/Slice0/Obligations.lean ====
section
/-! DEFINITION. The statements for the provers, from the numbered rules of spec/. `s.completed wrapped` and
`s.rejected code` (Sys2Proof/Safety.lean) name the state after a command's completion or rejection: an
equation with one of them says what the command writes and that everything else is unchanged. -/

open Sys2Proof Sys2Proof.Machine

/-! ### Words and commands -/

/-- A few words of the table of R73, and words that R74 calls illegal, as the decoder reads them. -/
def Obligations.DecodedWordsOfTheTable : Prop :=
  decode 0x00000000 = .command .nop ∧ decode 0x04000001 = .command (.process 1024) ∧
  decode 0x00000002 = .command .step ∧ decode 0x00000004 = .command .cfgCommit ∧
  decode 0x00000013 = .command .asr ∧ decode 0x00000017 = .command .gain ∧
  decode 0x00000005 = .illegal .reservedOpcode ∧ decode 0x00000018 = .illegal .reservedOpcode ∧
  decode 0x00000111 = .illegal .reservedBits ∧ decode 0x00010002 = .illegal .unexpectedArgument

/-- Decoder and encoder agree both ways: every well-formed command is read back from its word, and every
word that is a command is the word of that well-formed command (R70, R73, R74). -/
def Obligations.DecodeAndEncodeAgree : Prop :=
  (∀ i : Instr, i.wellFormed = true → decode (encode i) = .command i) ∧
  ∀ (w : Word) (i : Instr), decode w = .command i → i.wellFormed = true ∧ encode i = w

/-- A word is a command exactly when it matches a row of R73, and no word matches two rows (R73, R74). -/
def Obligations.DecoderAcceptsExactlyTheTable : Prop :=
  (∀ w : Word, (∃ i, decode w = .command i) ↔ ∃ r ∈ opcodeTable, r.matches w = true) ∧
  ∀ (w : Word) (r q : OpcodeRow), r ∈ opcodeTable → q ∈ opcodeTable →
    r.matches w = true → q.matches w = true → r = q

/-- The step runs the decoded command: when an idle core's next event is an aligned 32-bit write of `w` to
`CMD` and `w` is the command `i`, the step is `exec i` on the state without that event when no host access
lands while the command is busy, and else its issue with the host turns drawn (R71, R181, R222). How many
host turns land is the model's free draw (log 6), the host's queue its own (log 5). -/
def Obligations.StepRunsTheWrittenCommand : Prop :=
  ∀ (s : State) (rest : List HostEvent) (w : Word) (i : Instr),
    s.host = .write 32 cmdOffset w :: rest → s.busy = false → decode w = .command i →
    step s =
      if rest = [] ∨ Config.hostTurns s.draws = 0 then exec i { s with host := rest, draws := s.draws + 1 }
      else .next { State.issue i { s with host := rest, draws := s.draws + 1 } with
        slack := Config.hostTurns s.draws }

/-- A reserved `OP`, a nonzero `RSV`, or a nonzero `ARG` on a command other than `PROCESS`, written to `CMD`
of an idle core, records `CMD_ILLEGAL`, sets `DONE` to 0 and changes nothing else (R74). -/
def Obligations.IllegalWordIsRefused : Prop :=
  ∀ (s : State) (rest : List HostEvent) (w : Word),
    s.host = .write 32 cmdOffset w :: rest → s.busy = false →
    (w.extractLsb 7 0).toNat ∉ [0, 1, 2, 3, 4, 0x10, 0x11, 0x12, 0x13, 0x14, 0x15, 0x16, 0x17] ∨
      w.extractLsb 15 8 ≠ 0 ∨ (w.extractLsb 31 16 ≠ 0 ∧ w.extractLsb 7 0 ≠ 1) →
    step s = .next ({ s with host := rest, draws := s.draws + 1 }.rejected .cmdIllegal)

/-- The command checks in their order, the first that fails rejecting the command with nothing else changed
(R181, R182); a command that passes them all is accepted and completes (R71). Said of a write to `CMD` with no
further host event waiting: that the command then completes within this one step is the model's, which
draws no host turns for it (log 6; the queue is that of log 5, the atomic command that of log 12). -/
def Obligations.CommandChecksRunInOrder : Prop :=
  ∀ (s : State) (w : Word), s.host = [.write 32 cmdOffset w] → s.busy = false →
    let op := (w.extractLsb 7 0).toNat
    let rsv := (w.extractLsb 15 8).toNat
    let arg := (w.extractLsb 31 16).toNat
    let q := { s with host := [], draws := s.draws + 1 }
    if op ∉ [0, 1, 2, 3, 4, 0x10, 0x11, 0x12, 0x13, 0x14, 0x15, 0x16, 0x17] ∨ rsv ≠ 0 ∨ (arg ≠ 0 ∧ op ≠ 1) then
      step s = .next (q.rejected .cmdIllegal)
    else if (op = 1 ∨ op = 2) ∧ s.cfgv = false then step s = .next (q.rejected .cmdNotCfg)
    else if op = 1 ∧ s.ibufDepth < arg then step s = .next (q.rejected .cmdBadLen)
    else if op = 4 ∧
        ¬(0 < s.coefs.a0e.toInt ∧ s.coefs.a1e.toInt < 0 ∧ 0 < s.coefs.a0o.toInt ∧ s.coefs.a1o.toInt < 0) then
      step s = .next (q.rejected .cfgInvalid)
    else ∃ t, step s = .next t ∧ t.done = true ∧ t.busy = false ∧ t.errcause = s.errcause

/-! ### The primitive commands -/

/-- `TOFIXED` (R100, R110). -/
def Obligations.TofixedWidensExactly : Prop :=
  decode 0x00000010 = .command .toFixed ∧
  ∀ s : State, ∃ r : Word, exec .toFixed s = .next ({ s with res := r }.completed false) ∧
    r.toInt = (s.opa.setWidth 16).toInt * 1024

/-- `SMUL`: the floor of the exact product over `2^16`, within `[-2^30, 2^30]`, no wrap (R101, R111). -/
def Obligations.SmulFloorsTheExactProduct : Prop :=
  decode 0x00000011 = .command .smul ∧
  ∀ s : State, ∃ r : Word, exec .smul s = .next ({ s with res := r }.completed false) ∧
    r.toInt = (s.opa.toInt * (s.opb.setWidth 16).toInt) / 2 ^ 16 ∧ -2 ^ 30 ≤ r.toInt ∧ r.toInt ≤ 2 ^ 30

/-- `SMLA`: the sum of the base and the floored product, wrapped, with `OVF` set exactly when the sum does
not fit (R102, R112). -/
def Obligations.SmlaAddsAndRecordsTheWrap : Prop :=
  decode 0x00000012 = .command .smla ∧
  ∀ s : State, ∃ (r : Word) (wrapped : Bool),
    exec .smla s = .next ({ s with res := r }.completed wrapped) ∧
    let sum := s.opa.toInt + (s.opb.toInt * (s.opc.setWidth 16).toInt) / 2 ^ 16
    r.toInt = (sum + 2 ^ 31) % 2 ^ 32 - 2 ^ 31 ∧ (wrapped = true ↔ ¬(-2 ^ 31 ≤ sum ∧ sum ≤ 2 ^ 31 - 1))

/-- `ASR`: the floor of `OPA` over two to `OPB[4:0]` (R103, R113). -/
def Obligations.AsrFloorsByTheShiftAmount : Prop :=
  decode 0x00000013 = .command .asr ∧
  ∀ s : State, ∃ r : Word, exec .asr s = .next ({ s with res := r }.completed false) ∧
    r.toInt = s.opa.toInt / 2 ^ (s.opb.setWidth 5).toNat

/-- `SAT16`: the nearest value of the signed 16-bit range (R104, R114). -/
def Obligations.Sat16ClampsToTheRange : Prop :=
  decode 0x00000014 = .command .sat16 ∧
  ∀ s : State, ∃ r : Word, exec .sat16 s = .next ({ s with res := r }.completed false) ∧
    r.toInt = max (-32768) (min 32767 s.opa.toInt)

/-- `ADD32`: the wrapped sum, with `OVF` set exactly when the exact sum does not fit (R105, R115). -/
def Obligations.Add32WrapsAndRecordsIt : Prop :=
  decode 0x00000015 = .command .add32 ∧
  ∀ s : State, ∃ (r : Word) (wrapped : Bool),
    exec .add32 s = .next ({ s with res := r }.completed wrapped) ∧
    let sum := s.opa.toInt + s.opb.toInt
    r.toInt = (sum + 2 ^ 31) % 2 ^ 32 - 2 ^ 31 ∧ (wrapped = true ↔ ¬(-2 ^ 31 ≤ sum ∧ sum ≤ 2 ^ 31 - 1))

/-- `SUB32`: the wrapped difference, with `OVF` set exactly when the exact difference does not fit (R106,
R116). -/
def Obligations.Sub32WrapsAndRecordsIt : Prop :=
  decode 0x00000016 = .command .sub32 ∧
  ∀ s : State, ∃ (r : Word) (wrapped : Bool),
    exec .sub32 s = .next ({ s with res := r }.completed wrapped) ∧
    let difference := s.opa.toInt - s.opb.toInt
    r.toInt = (difference + 2 ^ 31) % 2 ^ 32 - 2 ^ 31 ∧
      (wrapped = true ↔ ¬(-2 ^ 31 ≤ difference ∧ difference ≤ 2 ^ 31 - 1))

/-- `GAIN`: gain, round half up, clamp; the output stage never wraps (R143, R144). -/
def Obligations.GainRoundsAndClamps : Prop :=
  decode 0x00000017 = .command .gain ∧
  ∀ s : State, ∃ r : Word, exec .gain s = .next ({ s with res := r }.completed false) ∧
    r.toInt = max (-32768) (min 32767 (((s.opa.toInt * s.coefs.n3.toInt) / 2 ^ 16 + 256) / 512))

/-- The output stage never sets `OVF_PEND`, whatever its operands (R143). -/
def Obligations.OutputStageNeverWraps : Prop := ∀ (pre : Word) (n3 : Half), gainWraps pre n3 = false

/-! ### The setup commands -/

/-- `NOP` (R170). -/
def Obligations.NopOnlyCompletes : Prop :=
  decode 0x00000000 = .command .nop ∧ ∀ s : State, exec .nop s = .next (s.completed false)

/-- `CLEAR_STATE` (R171). -/
def Obligations.ClearStateZeroesTheCells : Prop :=
  decode 0x00000003 = .command .clearState ∧
  ∀ s : State, exec .clearState s = .next ({ s with cells := ⟨0, 0, 0, 0, 0, 0⟩ }.completed false)

/-- `CFG_COMMIT`: with the right signs `CFGV` is set and the command completes; with a wrong one `CFGV` is
cleared and `CFG_INVALID` raised, the command being rejected (R24, R172). -/
def Obligations.CfgCommitValidatesTheSigns : Prop :=
  decode 0x00000004 = .command .cfgCommit ∧
  ∀ s : State,
    if 0 < s.coefs.a0e.toInt ∧ s.coefs.a1e.toInt < 0 ∧ 0 < s.coefs.a0o.toInt ∧ s.coefs.a1o.toInt < 0 then
      exec .cfgCommit s = .next ({ s with cfgv := true }.completed false)
    else exec .cfgCommit s = .next (s.rejected .cfgInvalid)

/-! ### The filter -/

/-- The sample step, written out in the primitives as R130, R131, R140, R141, R143 and R150 do, even phase
before odd, with a wrap recorded for every primitive that can wrap. -/
def Obligations.SampleStepFollowsItsEquations : Prop :=
  ∀ (c : Coefs) (m : Cells) (x : Half),
    let v := toFixed x
    let y := sub32 v m.s0
    let x1 := smul y c.a0e
    let out1 := add32 m.s0 x1
    let y2 := sub32 out1 m.s1
    let x2 := smla y2 y2 c.a1e
    let out2 := add32 m.s1 x2
    let acc1 := smla out2 m.s5 c.n2
    let acc2 := smla acc1 m.s4 c.n1
    let preE := smla acc2 m.s4 c.n0
    let s5 := sub32 acc2 m.s5
    let yo := sub32 v m.s2
    let x1o := smul yo c.a0o
    let out1o := add32 m.s2 x1o
    let y2o := sub32 out1o m.s3
    let x2o := smla y2o y2o c.a1o
    let out2o := add32 m.s3 x2o
    let acc1o := smla out2o m.s4 c.n2
    let acc2o := smla acc1o s5 c.n1
    let preO := smla acc2o s5 c.n0
    let r := sampleStep c m x
    r.cells = ⟨add32 v x1, add32 out1 x2, add32 v x1o, add32 out1o x2o, sub32 acc2o m.s4, s5⟩ ∧
    r.yE = sat16 (asr (smla 256 preE c.n3) 9) ∧ r.yO = sat16 (asr (smla 256 preO c.n3) 9) ∧
    (r.wrapped = true ↔ true ∈
      [subWraps v m.s0, addWraps m.s0 x1, addWraps v x1, subWraps out1 m.s1, smlaWraps y2 y2 c.a1e,
       addWraps m.s1 x2, addWraps out1 x2, smlaWraps out2 m.s5 c.n2, smlaWraps acc1 m.s4 c.n1,
       smlaWraps acc2 m.s4 c.n0, subWraps acc2 m.s5,
       subWraps v m.s2, addWraps m.s2 x1o, addWraps v x1o, subWraps out1o m.s3, smlaWraps y2o y2o c.a1o,
       addWraps m.s3 x2o, addWraps out1o x2o, smlaWraps out2o m.s4 c.n2, smlaWraps acc1o s5 c.n1,
       smlaWraps acc2o s5 c.n0, subWraps acc2o m.s4])

/-- `STEP`: with `CFGV = 1` one sample step from `OPA[15:0]`, its outputs in the halves of `RES`; with
`CFGV = 0` the rejection `CMD_NOTCFG` (R153). -/
def Obligations.StepCommandFiltersOneSample : Prop :=
  decode 0x00000002 = .command .step ∧
  ∀ s : State,
    let r := sampleStep s.coefs s.cells (s.opa.setWidth 16)
    if s.cfgv = true then
      exec .step s = .next ({ s with cells := r.cells, res := r.yO ++ r.yE }.completed r.wrapped)
    else exec .step s = .next (s.rejected .cmdNotCfg)

/-- `PROCESS N`, whose word is `(N << 16) | 0x0001`: rejected with `CMD_NOTCFG` when `CFGV = 0`, else with
`CMD_BADLEN` when `N > IBUF_DEPTH`; else the cells and outputs are those of the block function on
`IBUF[0..N-1]`, the `2N` outputs stand in `OBUF[0..2N-1]` in order, every byte outside those words reads as
before, and nothing else changes but the completion (R152). -/
def Obligations.ProcessFillsTheOutputBuffer : Prop :=
  (∀ n, n < 65536 → decode (BitVec.ofNat 16 n ++ (0x0001 : BitVec 16)) = .command (.process n)) ∧
  ∀ (s : State) (n : Nat),
    if s.cfgv = false then exec (.process n) s = .next (s.rejected .cmdNotCfg)
    else if s.ibufDepth < n then exec (.process n) s = .next (s.rejected .cmdBadLen)
    else
      let r := blockFilter s.coefs s.cells ((List.range n).map s.ibuf)
      ∃ m : Memory, ∃ t : State, t = { s with cells := r.cells, mem := m }.completed r.wrapped ∧
        exec (.process n) s = .next t ∧ r.out.length = 2 * n ∧
        (∀ j, j < 2 * n → some (t.obuf j) = r.out[j]?) ∧
        ∀ a, (∀ j, j < 2 * n → a ≠ obufAddr j ∧ a ≠ obufAddr j + 1) → t.byteAt a = s.byteAt a

/-- Streaming equivalence of the block function: a block on `a ++ b` is a block on `a`, then one on `b`
from the cells the first left (R156). -/
def Obligations.BlocksConcatenate : Prop :=
  ∀ (c : Coefs) (m : Cells) (a b : List Half),
    let first := blockFilter c m a
    let second := blockFilter c first.cells b
    blockFilter c m (a ++ b) =
      { cells := second.cells, out := first.out ++ second.out, wrapped := first.wrapped || second.wrapped }

/-- Streaming equivalence of the commands: `PROCESS (m+n)` gives the outputs and cells of `PROCESS m`
followed, with the rest of the input loaded into `IBUF` and nothing the filter reads changed otherwise, by
`PROCESS n` (R156). -/
def Obligations.ProcessSplitsAtAnyPoint : Prop :=
  ∀ (s u v : State) (m n : Nat), s.cfgv = true → m + n ≤ s.ibufDepth →
    exec (.process m) s = .next u →
    v.cfgv = true → v.coefs = s.coefs → v.cells = u.cells → n ≤ v.ibufDepth →
    (∀ k, k < n → v.ibuf k = s.ibuf (m + k)) →
    ∃ t w, exec (.process (m + n)) s = .next t ∧ exec (.process n) v = .next w ∧ t.cells = w.cells ∧
      (∀ j, j < 2 * m → t.obuf j = u.obuf j) ∧ ∀ j, j < 2 * n → t.obuf (2 * m + j) = w.obuf j

/-- `N` samples by `PROCESS` are the same samples by `STEP`, one command each: the first `STEP` of a block
gives the block's first two outputs and leaves the cells the rest of the block starts from (R156). -/
def Obligations.StepIsABlockOfOneSample : Prop :=
  ∀ (s : State) (xs : List Half), s.cfgv = true →
    ∃ t, exec .step s = .next t ∧ t.coefs = s.coefs ∧ t.cfgv = true ∧
      let rest := blockFilter t.coefs t.cells xs
      let whole := blockFilter s.coefs s.cells (s.opa.setWidth 16 :: xs)
      whole.out = t.res.setWidth 16 :: (t.res >>> 16).setWidth 16 :: rest.out ∧ whole.cells = rest.cells

/-- Zero input on zero cells gives zero outputs, leaves the cells zero and wraps nothing, for any
coefficients (R157). -/
def Obligations.ZeroInputGivesZeroOutput : Prop :=
  ∀ (c : Coefs) (n : Nat),
    blockFilter c ⟨0, 0, 0, 0, 0, 0⟩ (List.replicate n 0) =
      { cells := ⟨0, 0, 0, 0, 0, 0⟩, out := List.replicate (2 * n) 0, wrapped := false }

/-- The outputs and final cells of `PROCESS` and of `STEP` are functions of the cells, the coefficients and
the input words alone: two states that agree on those give the same (R158, R217). -/
def Obligations.FiltersDependOnTheirInputsAlone : Prop :=
  ∀ (s u t v : State), s.cfgv = true → u.cfgv = true → u.coefs = s.coefs → u.cells = s.cells →
    (∀ n, n ≤ s.ibufDepth → n ≤ u.ibufDepth → (∀ k, k < n → u.ibuf k = s.ibuf k) →
      exec (.process n) s = .next t → exec (.process n) u = .next v →
      v.cells = t.cells ∧ v.ovfPend = t.ovfPend ∧ ∀ j, j < 2 * n → v.obuf j = t.obuf j) ∧
    (u.opa.setWidth 16 = s.opa.setWidth 16 → exec .step s = .next t → exec .step u = .next v →
      v.cells = t.cells ∧ v.ovfPend = t.ovfPend ∧ v.res = t.res)

/-! ### The sequencer -/

/-- A command run position by position from its acceptance (R43, R154) ends, after exactly the turns its
position says are left, in the state that its meaning gives as one atomic transition (R61). How many turns
each command takes, and its first position, are the model's (logs 17 and 20). -/
def Obligations.SequencerRefinesTheAtomicCommand : Prop :=
  ∀ (i : Instr) (s t : State), commandError i s = none → exec i s = .next t →
    (s.issue i).busy = true ∧ advanceTimes (s.issue i).seq.turnsLeft (s.issue i) = t

/-- A rejected command is rejected at its issue, with no turn of the sequencer: the same state as its
meaning gives (R71, R182). -/
def Obligations.RejectionNeedsNoTurn : Prop :=
  ∀ (i : Instr) (s : State) (code : ErrCode), commandError i s = some code →
    exec i s = .next (s.issue i) ∧ (s.issue i).seq = s.seq ∧ s.issue i = s.rejected code

/-- With no host event waiting, a running command completes, with `DONE = 1`, after exactly the turns left
and is busy after any fewer: `PROCESS` takes one for each phase of each sample and one at `k = N`, `STEP` two,
every other command one (R43, R71, R154; that the end of `PROCESS` is a turn of its own is the model's reading,
log 17). -/
def Obligations.RunningCommandTakesItsTurns : Prop :=
  ∀ s : State, s.host = [] →
    (∀ k, k < s.seq.turnsLeft → ∃ u, Host.Core.run Sys2Proof.core k s = .next u ∧ u.busy = true) ∧
    ∃ t, Host.Core.run Sys2Proof.core s.seq.turnsLeft s = .next t ∧ t.busy = false ∧ t.host = [] ∧
      (s.busy = true → t.done = true)

/-- Completion is eventually taken: from every state, whatever host events wait and whatever the latency
draws are, the core is idle after some finite number of steps (R222; the draws and the polling host are the
model's, logs 6 and 15). -/
def Obligations.EveryCommandIsEventuallyOver : Prop :=
  ∀ s : State, ∃ (k : Nat) (t : State), Host.Core.run Sys2Proof.core k s = .next t ∧ t.busy = false

/-- No effect of a command can be read before its completion: a turn of the sequencer that leaves the core
busy changes no location the host may read while busy (R59, R61). -/
def Obligations.EffectsAppearAllAtOnce : Prop :=
  ∀ (s : State) (l : Loc), s.busy = true → (advance s).busy = true → l.readableBusy = true →
    (advance s).readLoc l = s.readLoc l

/-- A host turn while a command runs, short of a reset, changes nothing the command owns: cells,
coefficients, operands, result, buffers, `CFGV`, `OVF_PEND`, the position and the latch (R45, R59; `slack`,
which says that the turn is the host's, is the model's, log 6). -/
def Obligations.RunningCommandIsIsolatedFromTheHost : Prop :=
  ∀ (s t : State) (e : HostEvent) (rest : List HostEvent), s.host = e :: rest → e ≠ .reset →
    s.busy = true → s.slack ≠ 0 → step s = .next t →
    t.cells = s.cells ∧ t.coefs = s.coefs ∧ t.opa = s.opa ∧ t.opb = s.opb ∧ t.opc = s.opc ∧
    t.res = s.res ∧ t.mem = s.mem ∧ t.epoch = s.epoch ∧ t.cfgv = s.cfgv ∧ t.ovfPend = s.ovfPend ∧
    t.seq = s.seq ∧ t.ibufDepthPred = s.ibufDepthPred

/-! ### Host accesses -/

/-- The address map: every mapped location stands at its own offset, and an aligned offset reaches a
location exactly when it is that location's (R52). -/
def Obligations.AddressMapIsExact : Prop :=
  ∀ (depth : Nat), 1 ≤ depth → depth ≤ 1024 →
    (∀ l : Loc, l.mapped depth → l.offset < 0x4000 ∧ l.offset % 4 = 0 ∧ locate depth l.offset = some l) ∧
    ∀ (off : Nat) (l : Loc), off < 0x4000 → off % 4 = 0 → locate depth off = some l →
      l.offset = off ∧ l.mapped depth

/-- The bus checks in their order, width and alignment, mapped, busy, read-only, at any time; and what an
access that fails one does: a read returns 0, a write changes nothing and issues no command, and either only
records its code if none is recorded yet (R53, R54, R59, R184). -/
def Obligations.BusChecksRunInOrder : Prop :=
  ∀ (bits : Nat) (off : BitVec 14) (s : State),
    let readsBusy := [Loc.id, .cmd, .status, .errcause, .caps]
    let writesBusy := [Loc.status, .errcause]
    (∀ a : Access, busCheck a bits off s =
      if ¬(bits = 32 ∧ off.toNat % 4 = 0) then .refused .busSubword
      else match locate s.ibufDepth off.toNat with
        | none => .refused .busUnmapped
        | some l =>
          if s.busy = true ∧ (a = .read ∧ l ∉ readsBusy ∨ a = .write ∧ l ∉ writesBusy) then
            .refused .busBusy
          else if a = .write ∧ l ∈ [Loc.id, .res, .caps] then .refused .busReadonly
          else .reaches l) ∧
    ∀ code : ErrCode,
      let first := if s.errcause = .none then code else s.errcause
      (busCheck .read bits off s = .refused code →
        serve (.read bits off) s = .done { s with errcause := first, reads := s.reads ++ [0] }) ∧
      ∀ w, busCheck .write bits off s = .refused code →
        serve (.write bits off w) s = .done { s with errcause := first }

/-- A read changes nothing but the values read and the error record, and repeated it answers the same
(R58). -/
def Obligations.ReadsAreIdempotent : Prop :=
  ∀ (bits : Nat) (off : BitVec 14) (s : State), ∃ (v : Word) (e : ErrCode),
    busRead bits off s = { s with reads := s.reads ++ [v], errcause := e } ∧
    busRead bits off (busRead bits off s) = { s with reads := s.reads ++ [v, v], errcause := e }

/-- A write to a readable and writable register or buffer word of an idle core stores the whole word, or
for a 16-bit location its low half, and a read answers what was stored, sign-extended (R56, R57). The whole
next state: every other cell, coefficient, operand register and byte of the buffers reads as before, and
nothing else changes but `CFGV`, cleared by a coefficient (R23, R25, R40, R41, R58). -/
def Obligations.WrittenLocationReadsBack : Prop :=
  ∀ (s : State) (l : Loc) (w : Word), s.busy = false → l.mapped s.ibufDepth →
    l ∉ [Loc.id, .cmd, .status, .errcause, .res, .caps] →
    let off := BitVec.ofNat 14 l.offset
    let wide := match l with
      | .coef _ | .ibuf _ | .obuf _ => false
      | _ => true
    let stored := if wide then w else (w.setWidth 16).signExtend 32
    ∃ t, serve (.write 32 off w) s = .done t ∧
      serve (.read 32 off) t = .done { t with reads := t.reads ++ [stored] } ∧
      (∀ a, ¬(l.offset ≤ a ∧ a < l.offset + 2) → t.byteAt a = s.byteAt a) ∧
      (∀ n, l ≠ .cell n → t.cells.get n = s.cells.get n) ∧
      (∀ n, l ≠ .coef n → t.coefs.get n = s.coefs.get n) ∧
      t = { s with
        cells := t.cells
        coefs := t.coefs
        opa := if l = .opa then w else s.opa
        opb := if l = .opb then w else s.opb
        opc := if l = .opc then w else s.opc
        cfgv := match l with
          | .coef _ => false
          | _ => s.cfgv
        mem := match l with
          | .ibuf _ | .obuf _ => t.mem
          | _ => s.mem }

/-- A write to a coefficient register of an idle core stores the low half of the word, clears `CFGV`
whatever it writes, and changes nothing else (R23, R25). -/
def Obligations.CoefficientWriteClearsCfgv : Prop :=
  ∀ (s : State) (n : CoefName) (w : Word), s.busy = false →
    serve (.write 32 (BitVec.ofNat 14 (Loc.offset (.coef n))) w) s =
      .done { s with coefs := s.coefs.set n (w.setWidth 16), cfgv := false } ∧
    (s.coefs.set n (w.setWidth 16)).get n = w.setWidth 16 ∧
    ∀ q, q ≠ n → (s.coefs.set n (w.setWidth 16)).get q = s.coefs.get q

/-- Reads of `ID`, `CMD` and `CAPS`, busy or not (R30, R31, R32). -/
def Obligations.FixedRegistersRead : Prop :=
  ∀ s : State,
    serve (.read 32 0x000) s = .done { s with reads := s.reads ++ [0x55503248] } ∧
    serve (.read 32 0x004) s = .done { s with reads := s.reads ++ [0] } ∧
    serve (.read 32 0x058) s = .done { s with reads := s.reads ++ [BitVec.ofNat 32 s.ibufDepth] } ∧
    1 ≤ s.ibufDepth ∧ s.ibufDepth ≤ 1024

/-- `STATUS` and `ERRCAUSE`, busy or not: bit by bit what a read returns; a write to `STATUS` clears `DONE`
by bit 1 and `OVF` by bit 3 and nothing else, a read of `ERRCAUSE` returns the number R183 gives the
recorded code, any write to it clears the code (R33, R38, R39, R183). -/
def Obligations.StatusReadsAndClears : Prop :=
  ∀ (s : State) (w : Word),
    let code : Word := match s.errcause with
      | .none => 0
      | .cmdIllegal => 1
      | .cmdNotCfg => 2
      | .cmdBadLen => 3
      | .cfgInvalid => 4
      | .busBusy => 5
      | .busSubword => 6
      | .busUnmapped => 7
      | .busReadonly => 8
    (∃ v : Word, serve (.read 32 0x008) s = .done { s with reads := s.reads ++ [v] } ∧
      (v.getLsbD 0 = true ↔ s.seq ≠ .idle) ∧ v.getLsbD 1 = s.done ∧ v.getLsbD 2 = s.cfgv ∧
      v.getLsbD 3 = s.ovf ∧ (v.getLsbD 4 = true ↔ s.errcause ≠ .none) ∧
      ∀ i, 5 ≤ i → v.getLsbD i = false) ∧
    serve (.write 32 0x008 w) s = .done { s with
      done := if w.getLsbD 1 = true then false else s.done
      ovf := if w.getLsbD 3 = true then false else s.ovf } ∧
    serve (.read 32 0x00C) s = .done { s with reads := s.reads ++ [code] } ∧
    serve (.write 32 0x00C w) s = .done { s with errcause := .none }

/-- A command written while one runs is lost: `BUS_BUSY`, nothing else changed (R59, R215). -/
def Obligations.CommandWhileBusyIsLost : Prop :=
  ∀ (s : State) (w : Word), s.busy = true →
    serve (.write 32 cmdOffset w) s = .done
      { s with errcause := if s.errcause = .none then .busBusy else s.errcause }

/-- The window lies at `BASE`, 16 KiB aligned: an access at `BASE + off` reaches offset `off`, an access
outside the 16 KiB does not reach the core (R50; `BASE` is the model's free constant, log 9). -/
def Obligations.WindowLiesAtBase : Prop :=
  Config.base % 16384 = 0 ∧
  (∀ off, off < 16384 → memRead (Config.base + off) 4 = some (.read 32 (BitVec.ofNat 14 off)) ∧
    ∀ w, memWrite (Config.base + off) 4 w = some (.write 32 (BitVec.ofNat 14 off) w)) ∧
  ∀ addr, ¬(Config.base ≤ addr ∧ addr < Config.base + 16384) →
    memRead addr 4 = none ∧ ∀ w, memWrite addr 4 w = none

/-! ### Reset -/

/-- The reset event, also while a command runs: every register at its reset value, and idle, the command
abandoned (R210, R211). The buffers, which the rule leaves unspecified, are the next statement's. -/
def Obligations.ResetEventClearsTheCore : Prop :=
  ∀ s : State, ∃ t, serve .reset s = .done t ∧
    t.cells = ⟨0, 0, 0, 0, 0, 0⟩ ∧ t.coefs = ⟨0, 0, 0, 0, 0, 0, 0, 0⟩ ∧ t.opa = 0 ∧ t.opb = 0 ∧
    t.opc = 0 ∧ t.res = 0 ∧ t.statusWord = 0 ∧ t.errcause = .none ∧ t.seq = .idle ∧ t.ovfPend = false ∧
    t.ibufDepth = s.ibufDepth

/-- No buffer byte keeps over a reset what was written to it: each reads as a free value of its own, new
with every reset (R42, R211). The model's: one free value for each byte and reset (log 2), and that the
host's events and the values it read are not reset (log 13). -/
def Obligations.ResetLeavesTheBuffersFree : Prop :=
  ∀ s : State, ∃ t, serve .reset s = .done t ∧ t.host = s.host ∧ t.reads = s.reads ∧
    ∀ a, t.byteAt a = Config.freshByte (s.epoch + 1) a

/-- Right after reset, for every depth: `PROCESS` and `STEP` are refused with `CMD_NOTCFG`, `CFG_COMMIT`
with `CFG_INVALID`, every other command completes (R212). -/
def Obligations.AfterResetFiltersAndCommitAreRefused : Prop :=
  ∀ (depthPred : Fin 1024) (i : Instr),
    let s := State.resetAt depthPred
    exec i s = .next (match i with
      | .process _ | .step => s.rejected .cmdNotCfg
      | .cfgCommit => s.rejected .cfgInvalid
      | _ => s.completed false)

/-! ### The whole machine -/

/-- No access and no command has undefined behaviour: every step answers a next state (R185). -/
def Obligations.EveryStepAnswersANextState : Prop := ∀ s : State, ∃ t, step s = .next t

/-- The reset state is legal, for every depth. -/
def Obligations.ResetStateIsLegal : Prop := ∀ depthPred : Fin 1024, (State.resetAt depthPred).Legal

/-- Every step keeps a state legal: the buffer memory in the model's canonical form (log 4) and within the
buffers (R40, R41), `CFGV` only over valid signs (R24, R36, R173), the position within its command's samples
(R43, R154; for the commands other than `PROCESS` at the model's positions, log 20), `DONE = 0` while busy
(R35). -/
def Obligations.EveryStepKeepsTheStateLegal : Prop := ∀ s t : State, s.Legal → step s = .next t → t.Legal

/-- The coefficients never change while `CFGV` stays 1 (R25, R36, R173). -/
def Obligations.ChangedCoefficientsAreUnvalidated : Prop :=
  ∀ s t : State, step s = .next t → t.coefs ≠ s.coefs → t.cfgv = false

/-- The cells change only by `PROCESS`, `STEP`, `CLEAR_STATE`, a host write to a cell, and reset (R21). -/
def Obligations.CellsHaveNoOtherWriter : Prop :=
  ∀ s t : State, step s = .next t → t.cells ≠ s.cells →
    let writer (i : Instr) : Prop := i = .step ∨ i = .clearState ∨ ∃ n, i = .process n
    (∃ i k p, s.seq = .run i k p ∧ writer i) ∨ s.nextResets ∨
    (∃ n w, s.nextWrites (BitVec.ofNat 14 (Loc.offset (.cell n))) w) ∨
    ∃ w i, s.nextWrites cmdOffset w ∧ decode w = .command i ∧ writer i

/-- The operand registers change only by a host write to them, and by reset (R28). -/
def Obligations.OperandsHaveNoOtherWriter : Prop :=
  ∀ s t : State, step s = .next t →
    (t.opa ≠ s.opa → s.nextResets ∨ s.nextWrites 0x010 t.opa) ∧
    (t.opb ≠ s.opb → s.nextResets ∨ s.nextWrites 0x014 t.opb) ∧
    (t.opc ≠ s.opc → s.nextResets ∨ s.nextWrites 0x018 t.opc)

/-- `RES` changes only by `STEP` and the primitive commands, running or written, and by reset (R29). -/
def Obligations.ResultHasNoOtherWriter : Prop :=
  ∀ s t : State, step s = .next t → t.res ≠ s.res →
    let writer (i : Instr) : Prop :=
      i ∈ [.step, .toFixed, .smul, .smla, .asr, .sat16, .add32, .sub32, .gain]
    (∃ i k p, s.seq = .run i k p ∧ writer i) ∨ s.nextResets ∨
    ∃ w i, s.nextWrites cmdOffset w ∧ decode w = .command i ∧ writer i

/-- `CFGV` becomes 1 only by `CFG_COMMIT` (R36). -/
def Obligations.OnlyCfgCommitSetsCfgv : Prop :=
  ∀ s t : State, step s = .next t → s.cfgv = false → t.cfgv = true →
    (∃ k p, s.seq = .run .cfgCommit k p) ∨ s.nextWrites cmdOffset 0x00000004

/-- The first error is kept until the host clears it or the core is reset (R182, R187). -/
def Obligations.FirstErrorIsKept : Prop :=
  ∀ s t : State, step s = .next t → s.errcause ≠ .none →
    t.errcause = s.errcause ∨
    t.errcause = .none ∧ (s.nextResets ∨ ∃ w, s.nextWrites 0x00C w)

/-- `OVF` is sticky: only a write to `STATUS` with bit 3 set, or a reset, clears it (R37). -/
def Obligations.OverflowFlagIsSticky : Prop :=
  ∀ s t : State, step s = .next t → s.ovf = true →
    t.ovf = true ∨ s.nextResets ∨ ∃ w : Word, s.nextWrites 0x008 w ∧ w.getLsbD 3 = true

/-- An idle core with no event waiting keeps all its state (R196). -/
def Obligations.IdleCoreKeepsItsState : Prop :=
  ∀ s : State, s.busy = false → s.host = [] → step s = .next s
end

