-- ==== Sys2Proof/Laws/State.lean ====
section
/-! SUPPORT. One lemma per field per update of `State`, so that no proof unfolds a record update. -/

namespace Sys2Proof.Machine

variable (s : State)

/-! ### markWrapped -/

@[simp] theorem markWrapped_cells (w : Bool) : (s.markWrapped w).cells = s.cells := rfl
@[simp] theorem markWrapped_coefs (w : Bool) : (s.markWrapped w).coefs = s.coefs := rfl
@[simp] theorem markWrapped_opa (w : Bool) : (s.markWrapped w).opa = s.opa := rfl
@[simp] theorem markWrapped_opb (w : Bool) : (s.markWrapped w).opb = s.opb := rfl
@[simp] theorem markWrapped_opc (w : Bool) : (s.markWrapped w).opc = s.opc := rfl
@[simp] theorem markWrapped_res (w : Bool) : (s.markWrapped w).res = s.res := rfl
@[simp] theorem markWrapped_done (w : Bool) : (s.markWrapped w).done = s.done := rfl
@[simp] theorem markWrapped_cfgv (w : Bool) : (s.markWrapped w).cfgv = s.cfgv := rfl
@[simp] theorem markWrapped_ovf (w : Bool) : (s.markWrapped w).ovf = s.ovf := rfl
@[simp] theorem markWrapped_errcause (w : Bool) : (s.markWrapped w).errcause = s.errcause := rfl
@[simp] theorem markWrapped_seq (w : Bool) : (s.markWrapped w).seq = s.seq := rfl
@[simp] theorem markWrapped_ovfPend (w : Bool) : (s.markWrapped w).ovfPend = (s.ovfPend || w) := rfl
@[simp] theorem markWrapped_ibufDepthPred (w : Bool) :
    (s.markWrapped w).ibufDepthPred = s.ibufDepthPred := rfl
@[simp] theorem markWrapped_mem (w : Bool) : (s.markWrapped w).mem = s.mem := rfl
@[simp] theorem markWrapped_host (w : Bool) : (s.markWrapped w).host = s.host := rfl
@[simp] theorem markWrapped_reads (w : Bool) : (s.markWrapped w).reads = s.reads := rfl
@[simp] theorem markWrapped_epoch (w : Bool) : (s.markWrapped w).epoch = s.epoch := rfl
@[simp] theorem markWrapped_draws (w : Bool) : (s.markWrapped w).draws = s.draws := rfl
@[simp] theorem markWrapped_slack (w : Bool) : (s.markWrapped w).slack = s.slack := rfl

/-! ### writeRes -/

@[simp] theorem writeRes_cells (r : Word) (w : Bool) : (s.writeRes r w).cells = s.cells := rfl
@[simp] theorem writeRes_coefs (r : Word) (w : Bool) : (s.writeRes r w).coefs = s.coefs := rfl
@[simp] theorem writeRes_opa (r : Word) (w : Bool) : (s.writeRes r w).opa = s.opa := rfl
@[simp] theorem writeRes_opb (r : Word) (w : Bool) : (s.writeRes r w).opb = s.opb := rfl
@[simp] theorem writeRes_opc (r : Word) (w : Bool) : (s.writeRes r w).opc = s.opc := rfl
@[simp] theorem writeRes_res (r : Word) (w : Bool) : (s.writeRes r w).res = r := rfl
@[simp] theorem writeRes_done (r : Word) (w : Bool) : (s.writeRes r w).done = s.done := rfl
@[simp] theorem writeRes_cfgv (r : Word) (w : Bool) : (s.writeRes r w).cfgv = s.cfgv := rfl
@[simp] theorem writeRes_ovf (r : Word) (w : Bool) : (s.writeRes r w).ovf = s.ovf := rfl
@[simp] theorem writeRes_errcause (r : Word) (w : Bool) : (s.writeRes r w).errcause = s.errcause := rfl
@[simp] theorem writeRes_seq (r : Word) (w : Bool) : (s.writeRes r w).seq = s.seq := rfl
@[simp] theorem writeRes_ovfPend (r : Word) (w : Bool) : (s.writeRes r w).ovfPend = (s.ovfPend || w) := rfl
@[simp] theorem writeRes_ibufDepthPred (r : Word) (w : Bool) :
    (s.writeRes r w).ibufDepthPred = s.ibufDepthPred := rfl
@[simp] theorem writeRes_mem (r : Word) (w : Bool) : (s.writeRes r w).mem = s.mem := rfl
@[simp] theorem writeRes_host (r : Word) (w : Bool) : (s.writeRes r w).host = s.host := rfl
@[simp] theorem writeRes_reads (r : Word) (w : Bool) : (s.writeRes r w).reads = s.reads := rfl
@[simp] theorem writeRes_epoch (r : Word) (w : Bool) : (s.writeRes r w).epoch = s.epoch := rfl
@[simp] theorem writeRes_draws (r : Word) (w : Bool) : (s.writeRes r w).draws = s.draws := rfl
@[simp] theorem writeRes_slack (r : Word) (w : Bool) : (s.writeRes r w).slack = s.slack := rfl

/-! ### raiseError -/

@[simp] theorem raiseError_cells (e : ErrCode) : (s.raiseError e).cells = s.cells := rfl
@[simp] theorem raiseError_coefs (e : ErrCode) : (s.raiseError e).coefs = s.coefs := rfl
@[simp] theorem raiseError_opa (e : ErrCode) : (s.raiseError e).opa = s.opa := rfl
@[simp] theorem raiseError_opb (e : ErrCode) : (s.raiseError e).opb = s.opb := rfl
@[simp] theorem raiseError_opc (e : ErrCode) : (s.raiseError e).opc = s.opc := rfl
@[simp] theorem raiseError_res (e : ErrCode) : (s.raiseError e).res = s.res := rfl
@[simp] theorem raiseError_done (e : ErrCode) : (s.raiseError e).done = s.done := rfl
@[simp] theorem raiseError_cfgv (e : ErrCode) : (s.raiseError e).cfgv = s.cfgv := rfl
@[simp] theorem raiseError_ovf (e : ErrCode) : (s.raiseError e).ovf = s.ovf := rfl
@[simp] theorem raiseError_errcause (e : ErrCode) :
    (s.raiseError e).errcause = if s.errcause = .none then e else s.errcause := rfl
@[simp] theorem raiseError_seq (e : ErrCode) : (s.raiseError e).seq = s.seq := rfl
@[simp] theorem raiseError_ovfPend (e : ErrCode) : (s.raiseError e).ovfPend = s.ovfPend := rfl
@[simp] theorem raiseError_ibufDepthPred (e : ErrCode) :
    (s.raiseError e).ibufDepthPred = s.ibufDepthPred := rfl
@[simp] theorem raiseError_mem (e : ErrCode) : (s.raiseError e).mem = s.mem := rfl
@[simp] theorem raiseError_host (e : ErrCode) : (s.raiseError e).host = s.host := rfl
@[simp] theorem raiseError_reads (e : ErrCode) : (s.raiseError e).reads = s.reads := rfl
@[simp] theorem raiseError_epoch (e : ErrCode) : (s.raiseError e).epoch = s.epoch := rfl
@[simp] theorem raiseError_draws (e : ErrCode) : (s.raiseError e).draws = s.draws := rfl
@[simp] theorem raiseError_slack (e : ErrCode) : (s.raiseError e).slack = s.slack := rfl

/-! ### clearError -/

@[simp] theorem clearError_cells : (s.clearError).cells = s.cells := rfl
@[simp] theorem clearError_coefs : (s.clearError).coefs = s.coefs := rfl
@[simp] theorem clearError_opa : (s.clearError).opa = s.opa := rfl
@[simp] theorem clearError_opb : (s.clearError).opb = s.opb := rfl
@[simp] theorem clearError_opc : (s.clearError).opc = s.opc := rfl
@[simp] theorem clearError_res : (s.clearError).res = s.res := rfl
@[simp] theorem clearError_done : (s.clearError).done = s.done := rfl
@[simp] theorem clearError_cfgv : (s.clearError).cfgv = s.cfgv := rfl
@[simp] theorem clearError_ovf : (s.clearError).ovf = s.ovf := rfl
@[simp] theorem clearError_errcause : (s.clearError).errcause = .none := rfl
@[simp] theorem clearError_seq : (s.clearError).seq = s.seq := rfl
@[simp] theorem clearError_ovfPend : (s.clearError).ovfPend = s.ovfPend := rfl
@[simp] theorem clearError_ibufDepthPred : (s.clearError).ibufDepthPred = s.ibufDepthPred := rfl
@[simp] theorem clearError_mem : (s.clearError).mem = s.mem := rfl
@[simp] theorem clearError_host : (s.clearError).host = s.host := rfl
@[simp] theorem clearError_reads : (s.clearError).reads = s.reads := rfl
@[simp] theorem clearError_epoch : (s.clearError).epoch = s.epoch := rfl
@[simp] theorem clearError_draws : (s.clearError).draws = s.draws := rfl
@[simp] theorem clearError_slack : (s.clearError).slack = s.slack := rfl

/-! ### reject -/

@[simp] theorem reject_cells (e : ErrCode) : (s.reject e).cells = s.cells := rfl
@[simp] theorem reject_coefs (e : ErrCode) : (s.reject e).coefs = s.coefs := rfl
@[simp] theorem reject_opa (e : ErrCode) : (s.reject e).opa = s.opa := rfl
@[simp] theorem reject_opb (e : ErrCode) : (s.reject e).opb = s.opb := rfl
@[simp] theorem reject_opc (e : ErrCode) : (s.reject e).opc = s.opc := rfl
@[simp] theorem reject_res (e : ErrCode) : (s.reject e).res = s.res := rfl
@[simp] theorem reject_done (e : ErrCode) : (s.reject e).done = s.done := rfl
@[simp] theorem reject_cfgv (e : ErrCode) :
    (s.reject e).cfgv = if e = ErrCode.cfgInvalid then false else s.cfgv := rfl
@[simp] theorem reject_ovf (e : ErrCode) : (s.reject e).ovf = s.ovf := rfl
@[simp] theorem reject_errcause (e : ErrCode) :
    (s.reject e).errcause = if s.errcause = .none then e else s.errcause := rfl
@[simp] theorem reject_seq (e : ErrCode) : (s.reject e).seq = s.seq := rfl
@[simp] theorem reject_ovfPend (e : ErrCode) : (s.reject e).ovfPend = s.ovfPend := rfl
@[simp] theorem reject_ibufDepthPred (e : ErrCode) : (s.reject e).ibufDepthPred = s.ibufDepthPred := rfl
@[simp] theorem reject_mem (e : ErrCode) : (s.reject e).mem = s.mem := rfl
@[simp] theorem reject_host (e : ErrCode) : (s.reject e).host = s.host := rfl
@[simp] theorem reject_reads (e : ErrCode) : (s.reject e).reads = s.reads := rfl
@[simp] theorem reject_epoch (e : ErrCode) : (s.reject e).epoch = s.epoch := rfl
@[simp] theorem reject_draws (e : ErrCode) : (s.reject e).draws = s.draws := rfl
@[simp] theorem reject_slack (e : ErrCode) : (s.reject e).slack = s.slack := rfl

/-! ### beginCommand -/

@[simp] theorem beginCommand_cells : (s.beginCommand).cells = s.cells := rfl
@[simp] theorem beginCommand_coefs : (s.beginCommand).coefs = s.coefs := rfl
@[simp] theorem beginCommand_opa : (s.beginCommand).opa = s.opa := rfl
@[simp] theorem beginCommand_opb : (s.beginCommand).opb = s.opb := rfl
@[simp] theorem beginCommand_opc : (s.beginCommand).opc = s.opc := rfl
@[simp] theorem beginCommand_res : (s.beginCommand).res = s.res := rfl
@[simp] theorem beginCommand_done : (s.beginCommand).done = false := rfl
@[simp] theorem beginCommand_cfgv : (s.beginCommand).cfgv = s.cfgv := rfl
@[simp] theorem beginCommand_ovf : (s.beginCommand).ovf = s.ovf := rfl
@[simp] theorem beginCommand_errcause : (s.beginCommand).errcause = s.errcause := rfl
@[simp] theorem beginCommand_seq : (s.beginCommand).seq = s.seq := rfl
@[simp] theorem beginCommand_ovfPend : (s.beginCommand).ovfPend = s.ovfPend := rfl
@[simp] theorem beginCommand_ibufDepthPred : (s.beginCommand).ibufDepthPred = s.ibufDepthPred := rfl
@[simp] theorem beginCommand_mem : (s.beginCommand).mem = s.mem := rfl
@[simp] theorem beginCommand_host : (s.beginCommand).host = s.host := rfl
@[simp] theorem beginCommand_reads : (s.beginCommand).reads = s.reads := rfl
@[simp] theorem beginCommand_epoch : (s.beginCommand).epoch = s.epoch := rfl
@[simp] theorem beginCommand_draws : (s.beginCommand).draws = s.draws := rfl
@[simp] theorem beginCommand_slack : (s.beginCommand).slack = s.slack := rfl

/-! ### accept -/

@[simp] theorem accept_cells (i : Instr) : (s.accept i).cells = s.cells := rfl
@[simp] theorem accept_coefs (i : Instr) : (s.accept i).coefs = s.coefs := rfl
@[simp] theorem accept_opa (i : Instr) : (s.accept i).opa = s.opa := rfl
@[simp] theorem accept_opb (i : Instr) : (s.accept i).opb = s.opb := rfl
@[simp] theorem accept_opc (i : Instr) : (s.accept i).opc = s.opc := rfl
@[simp] theorem accept_res (i : Instr) : (s.accept i).res = s.res := rfl
@[simp] theorem accept_done (i : Instr) : (s.accept i).done = s.done := rfl
@[simp] theorem accept_cfgv (i : Instr) : (s.accept i).cfgv = s.cfgv := rfl
@[simp] theorem accept_ovf (i : Instr) : (s.accept i).ovf = s.ovf := rfl
@[simp] theorem accept_errcause (i : Instr) : (s.accept i).errcause = s.errcause := rfl
@[simp] theorem accept_seq (i : Instr) : (s.accept i).seq = .run i 0 .even := rfl
@[simp] theorem accept_ovfPend (i : Instr) : (s.accept i).ovfPend = false := rfl
@[simp] theorem accept_ibufDepthPred (i : Instr) : (s.accept i).ibufDepthPred = s.ibufDepthPred := rfl
@[simp] theorem accept_mem (i : Instr) : (s.accept i).mem = s.mem := rfl
@[simp] theorem accept_host (i : Instr) : (s.accept i).host = s.host := rfl
@[simp] theorem accept_reads (i : Instr) : (s.accept i).reads = s.reads := rfl
@[simp] theorem accept_epoch (i : Instr) : (s.accept i).epoch = s.epoch := rfl
@[simp] theorem accept_draws (i : Instr) : (s.accept i).draws = s.draws := rfl
@[simp] theorem accept_slack (i : Instr) : (s.accept i).slack = s.slack := rfl

/-! ### complete -/

@[simp] theorem complete_cells : (s.complete).cells = s.cells := rfl
@[simp] theorem complete_coefs : (s.complete).coefs = s.coefs := rfl
@[simp] theorem complete_opa : (s.complete).opa = s.opa := rfl
@[simp] theorem complete_opb : (s.complete).opb = s.opb := rfl
@[simp] theorem complete_opc : (s.complete).opc = s.opc := rfl
@[simp] theorem complete_res : (s.complete).res = s.res := rfl
@[simp] theorem complete_done : (s.complete).done = true := rfl
@[simp] theorem complete_cfgv : (s.complete).cfgv = s.cfgv := rfl
@[simp] theorem complete_ovf : (s.complete).ovf = (s.ovf || s.ovfPend) := rfl
@[simp] theorem complete_errcause : (s.complete).errcause = s.errcause := rfl
@[simp] theorem complete_seq : (s.complete).seq = .idle := rfl
@[simp] theorem complete_ovfPend : (s.complete).ovfPend = s.ovfPend := rfl
@[simp] theorem complete_ibufDepthPred : (s.complete).ibufDepthPred = s.ibufDepthPred := rfl
@[simp] theorem complete_mem : (s.complete).mem = s.mem := rfl
@[simp] theorem complete_host : (s.complete).host = s.host := rfl
@[simp] theorem complete_reads : (s.complete).reads = s.reads := rfl
@[simp] theorem complete_epoch : (s.complete).epoch = s.epoch := rfl
@[simp] theorem complete_draws : (s.complete).draws = s.draws := rfl
@[simp] theorem complete_slack : (s.complete).slack = s.slack := rfl

/-! ### setHalf -/

@[simp] theorem setHalf_cells (a : Nat) (h : Half) : (s.setHalf a h).cells = s.cells := rfl
@[simp] theorem setHalf_coefs (a : Nat) (h : Half) : (s.setHalf a h).coefs = s.coefs := rfl
@[simp] theorem setHalf_opa (a : Nat) (h : Half) : (s.setHalf a h).opa = s.opa := rfl
@[simp] theorem setHalf_opb (a : Nat) (h : Half) : (s.setHalf a h).opb = s.opb := rfl
@[simp] theorem setHalf_opc (a : Nat) (h : Half) : (s.setHalf a h).opc = s.opc := rfl
@[simp] theorem setHalf_res (a : Nat) (h : Half) : (s.setHalf a h).res = s.res := rfl
@[simp] theorem setHalf_done (a : Nat) (h : Half) : (s.setHalf a h).done = s.done := rfl
@[simp] theorem setHalf_cfgv (a : Nat) (h : Half) : (s.setHalf a h).cfgv = s.cfgv := rfl
@[simp] theorem setHalf_ovf (a : Nat) (h : Half) : (s.setHalf a h).ovf = s.ovf := rfl
@[simp] theorem setHalf_errcause (a : Nat) (h : Half) : (s.setHalf a h).errcause = s.errcause := rfl
@[simp] theorem setHalf_seq (a : Nat) (h : Half) : (s.setHalf a h).seq = s.seq := rfl
@[simp] theorem setHalf_ovfPend (a : Nat) (h : Half) : (s.setHalf a h).ovfPend = s.ovfPend := rfl
@[simp] theorem setHalf_ibufDepthPred (a : Nat) (h : Half) :
    (s.setHalf a h).ibufDepthPred = s.ibufDepthPred := rfl
@[simp] theorem setHalf_mem (a : Nat) (h : Half) :
    (s.setHalf a h).mem = Memory.set (Memory.set s.mem a (lowByte h)) (a + 1) (highByte h) := rfl
@[simp] theorem setHalf_host (a : Nat) (h : Half) : (s.setHalf a h).host = s.host := rfl
@[simp] theorem setHalf_reads (a : Nat) (h : Half) : (s.setHalf a h).reads = s.reads := rfl
@[simp] theorem setHalf_epoch (a : Nat) (h : Half) : (s.setHalf a h).epoch = s.epoch := rfl
@[simp] theorem setHalf_draws (a : Nat) (h : Half) : (s.setHalf a h).draws = s.draws := rfl
@[simp] theorem setHalf_slack (a : Nat) (h : Half) : (s.setHalf a h).slack = s.slack := rfl

/-! ### setIbuf -/

@[simp] theorem setIbuf_cells (k : Nat) (h : Half) : (s.setIbuf k h).cells = s.cells := rfl
@[simp] theorem setIbuf_coefs (k : Nat) (h : Half) : (s.setIbuf k h).coefs = s.coefs := rfl
@[simp] theorem setIbuf_opa (k : Nat) (h : Half) : (s.setIbuf k h).opa = s.opa := rfl
@[simp] theorem setIbuf_opb (k : Nat) (h : Half) : (s.setIbuf k h).opb = s.opb := rfl
@[simp] theorem setIbuf_opc (k : Nat) (h : Half) : (s.setIbuf k h).opc = s.opc := rfl
@[simp] theorem setIbuf_res (k : Nat) (h : Half) : (s.setIbuf k h).res = s.res := rfl
@[simp] theorem setIbuf_done (k : Nat) (h : Half) : (s.setIbuf k h).done = s.done := rfl
@[simp] theorem setIbuf_cfgv (k : Nat) (h : Half) : (s.setIbuf k h).cfgv = s.cfgv := rfl
@[simp] theorem setIbuf_ovf (k : Nat) (h : Half) : (s.setIbuf k h).ovf = s.ovf := rfl
@[simp] theorem setIbuf_errcause (k : Nat) (h : Half) : (s.setIbuf k h).errcause = s.errcause := rfl
@[simp] theorem setIbuf_seq (k : Nat) (h : Half) : (s.setIbuf k h).seq = s.seq := rfl
@[simp] theorem setIbuf_ovfPend (k : Nat) (h : Half) : (s.setIbuf k h).ovfPend = s.ovfPend := rfl
@[simp] theorem setIbuf_ibufDepthPred (k : Nat) (h : Half) :
    (s.setIbuf k h).ibufDepthPred = s.ibufDepthPred := rfl
@[simp] theorem setIbuf_mem (k : Nat) (h : Half) :
    (s.setIbuf k h).mem = (s.setHalf (ibufAddr k) h).mem := rfl
@[simp] theorem setIbuf_host (k : Nat) (h : Half) : (s.setIbuf k h).host = s.host := rfl
@[simp] theorem setIbuf_reads (k : Nat) (h : Half) : (s.setIbuf k h).reads = s.reads := rfl
@[simp] theorem setIbuf_epoch (k : Nat) (h : Half) : (s.setIbuf k h).epoch = s.epoch := rfl
@[simp] theorem setIbuf_draws (k : Nat) (h : Half) : (s.setIbuf k h).draws = s.draws := rfl
@[simp] theorem setIbuf_slack (k : Nat) (h : Half) : (s.setIbuf k h).slack = s.slack := rfl

/-! ### setObuf -/

@[simp] theorem setObuf_cells (j : Nat) (h : Half) : (s.setObuf j h).cells = s.cells := rfl
@[simp] theorem setObuf_coefs (j : Nat) (h : Half) : (s.setObuf j h).coefs = s.coefs := rfl
@[simp] theorem setObuf_opa (j : Nat) (h : Half) : (s.setObuf j h).opa = s.opa := rfl
@[simp] theorem setObuf_opb (j : Nat) (h : Half) : (s.setObuf j h).opb = s.opb := rfl
@[simp] theorem setObuf_opc (j : Nat) (h : Half) : (s.setObuf j h).opc = s.opc := rfl
@[simp] theorem setObuf_res (j : Nat) (h : Half) : (s.setObuf j h).res = s.res := rfl
@[simp] theorem setObuf_done (j : Nat) (h : Half) : (s.setObuf j h).done = s.done := rfl
@[simp] theorem setObuf_cfgv (j : Nat) (h : Half) : (s.setObuf j h).cfgv = s.cfgv := rfl
@[simp] theorem setObuf_ovf (j : Nat) (h : Half) : (s.setObuf j h).ovf = s.ovf := rfl
@[simp] theorem setObuf_errcause (j : Nat) (h : Half) : (s.setObuf j h).errcause = s.errcause := rfl
@[simp] theorem setObuf_seq (j : Nat) (h : Half) : (s.setObuf j h).seq = s.seq := rfl
@[simp] theorem setObuf_ovfPend (j : Nat) (h : Half) : (s.setObuf j h).ovfPend = s.ovfPend := rfl
@[simp] theorem setObuf_ibufDepthPred (j : Nat) (h : Half) :
    (s.setObuf j h).ibufDepthPred = s.ibufDepthPred := rfl
@[simp] theorem setObuf_mem (j : Nat) (h : Half) :
    (s.setObuf j h).mem = (s.setHalf (obufAddr j) h).mem := rfl
@[simp] theorem setObuf_host (j : Nat) (h : Half) : (s.setObuf j h).host = s.host := rfl
@[simp] theorem setObuf_reads (j : Nat) (h : Half) : (s.setObuf j h).reads = s.reads := rfl
@[simp] theorem setObuf_epoch (j : Nat) (h : Half) : (s.setObuf j h).epoch = s.epoch := rfl
@[simp] theorem setObuf_draws (j : Nat) (h : Half) : (s.setObuf j h).draws = s.draws := rfl
@[simp] theorem setObuf_slack (j : Nat) (h : Half) : (s.setObuf j h).slack = s.slack := rfl

/-! ### answer -/

@[simp] theorem answer_cells (w : Word) : (s.answer w).cells = s.cells := rfl
@[simp] theorem answer_coefs (w : Word) : (s.answer w).coefs = s.coefs := rfl
@[simp] theorem answer_opa (w : Word) : (s.answer w).opa = s.opa := rfl
@[simp] theorem answer_opb (w : Word) : (s.answer w).opb = s.opb := rfl
@[simp] theorem answer_opc (w : Word) : (s.answer w).opc = s.opc := rfl
@[simp] theorem answer_res (w : Word) : (s.answer w).res = s.res := rfl
@[simp] theorem answer_done (w : Word) : (s.answer w).done = s.done := rfl
@[simp] theorem answer_cfgv (w : Word) : (s.answer w).cfgv = s.cfgv := rfl
@[simp] theorem answer_ovf (w : Word) : (s.answer w).ovf = s.ovf := rfl
@[simp] theorem answer_errcause (w : Word) : (s.answer w).errcause = s.errcause := rfl
@[simp] theorem answer_seq (w : Word) : (s.answer w).seq = s.seq := rfl
@[simp] theorem answer_ovfPend (w : Word) : (s.answer w).ovfPend = s.ovfPend := rfl
@[simp] theorem answer_ibufDepthPred (w : Word) : (s.answer w).ibufDepthPred = s.ibufDepthPred := rfl
@[simp] theorem answer_mem (w : Word) : (s.answer w).mem = s.mem := rfl
@[simp] theorem answer_host (w : Word) : (s.answer w).host = s.host := rfl
@[simp] theorem answer_reads (w : Word) : (s.answer w).reads = s.reads ++ [w] := rfl
@[simp] theorem answer_epoch (w : Word) : (s.answer w).epoch = s.epoch := rfl
@[simp] theorem answer_draws (w : Word) : (s.answer w).draws = s.draws := rfl
@[simp] theorem answer_slack (w : Word) : (s.answer w).slack = s.slack := rfl

/-! ### writeStatus -/

@[simp] theorem writeStatus_cells (w : Word) : (s.writeStatus w).cells = s.cells := rfl
@[simp] theorem writeStatus_coefs (w : Word) : (s.writeStatus w).coefs = s.coefs := rfl
@[simp] theorem writeStatus_opa (w : Word) : (s.writeStatus w).opa = s.opa := rfl
@[simp] theorem writeStatus_opb (w : Word) : (s.writeStatus w).opb = s.opb := rfl
@[simp] theorem writeStatus_opc (w : Word) : (s.writeStatus w).opc = s.opc := rfl
@[simp] theorem writeStatus_res (w : Word) : (s.writeStatus w).res = s.res := rfl
@[simp] theorem writeStatus_done (w : Word) : (s.writeStatus w).done = (s.done && !bit w 1) := rfl
@[simp] theorem writeStatus_cfgv (w : Word) : (s.writeStatus w).cfgv = s.cfgv := rfl
@[simp] theorem writeStatus_ovf (w : Word) : (s.writeStatus w).ovf = (s.ovf && !bit w 3) := rfl
@[simp] theorem writeStatus_errcause (w : Word) : (s.writeStatus w).errcause = s.errcause := rfl
@[simp] theorem writeStatus_seq (w : Word) : (s.writeStatus w).seq = s.seq := rfl
@[simp] theorem writeStatus_ovfPend (w : Word) : (s.writeStatus w).ovfPend = s.ovfPend := rfl
@[simp] theorem writeStatus_ibufDepthPred (w : Word) :
    (s.writeStatus w).ibufDepthPred = s.ibufDepthPred := rfl
@[simp] theorem writeStatus_mem (w : Word) : (s.writeStatus w).mem = s.mem := rfl
@[simp] theorem writeStatus_host (w : Word) : (s.writeStatus w).host = s.host := rfl
@[simp] theorem writeStatus_reads (w : Word) : (s.writeStatus w).reads = s.reads := rfl
@[simp] theorem writeStatus_epoch (w : Word) : (s.writeStatus w).epoch = s.epoch := rfl
@[simp] theorem writeStatus_draws (w : Word) : (s.writeStatus w).draws = s.draws := rfl
@[simp] theorem writeStatus_slack (w : Word) : (s.writeStatus w).slack = s.slack := rfl

/-! ### resetEvent: the core's state goes to its reset value; host, reads, draws and depth stay -/

@[simp] theorem resetEvent_cells : s.resetEvent.cells = ⟨0, 0, 0, 0, 0, 0⟩ := rfl
@[simp] theorem resetEvent_coefs : s.resetEvent.coefs = ⟨0, 0, 0, 0, 0, 0, 0, 0⟩ := rfl
@[simp] theorem resetEvent_opa : s.resetEvent.opa = 0 := rfl
@[simp] theorem resetEvent_opb : s.resetEvent.opb = 0 := rfl
@[simp] theorem resetEvent_opc : s.resetEvent.opc = 0 := rfl
@[simp] theorem resetEvent_res : s.resetEvent.res = 0 := rfl
@[simp] theorem resetEvent_done : s.resetEvent.done = false := rfl
@[simp] theorem resetEvent_cfgv : s.resetEvent.cfgv = false := rfl
@[simp] theorem resetEvent_ovf : s.resetEvent.ovf = false := rfl
@[simp] theorem resetEvent_errcause : s.resetEvent.errcause = .none := rfl
@[simp] theorem resetEvent_seq : s.resetEvent.seq = .idle := rfl
@[simp] theorem resetEvent_ovfPend : s.resetEvent.ovfPend = false := rfl
@[simp] theorem resetEvent_ibufDepthPred : s.resetEvent.ibufDepthPred = s.ibufDepthPred := rfl
@[simp] theorem resetEvent_mem : s.resetEvent.mem = [] := rfl
@[simp] theorem resetEvent_host : s.resetEvent.host = s.host := rfl
@[simp] theorem resetEvent_reads : s.resetEvent.reads = s.reads := rfl
@[simp] theorem resetEvent_epoch : s.resetEvent.epoch = s.epoch + 1 := rfl
@[simp] theorem resetEvent_draws : s.resetEvent.draws = s.draws := rfl
@[simp] theorem resetEvent_slack : s.resetEvent.slack = 0 := rfl

end Sys2Proof.Machine
end

