-- ==== Sys2Proof/Laws/Arith.lean ====
section
/-! SUPPORT. Narrowing to 32 bits (R12), the ranges of the operands (R10), bit fields (R11). -/

namespace Sys2Proof.Machine

/-- A 32-bit word is an `int32` (R10). -/
theorem word_range (w : Word) : -2147483648 ≤ w.toInt ∧ w.toInt ≤ 2147483647 := by
  have h1 := BitVec.le_toInt w
  have h2 := BitVec.toInt_lt (x := w)
  norm_num at h1 h2
  omega

/-- A 16-bit value is an `int16` (R10). -/
theorem half_range (h : Half) : -32768 ≤ h.toInt ∧ h.toInt ≤ 32767 := by
  have h1 := BitVec.le_toInt h
  have h2 := BitVec.toInt_lt (x := h)
  norm_num at h1 h2
  omega

/-- `wrap32` is the wrap of R12. -/
theorem wrap32_toInt (v : Int) : (wrap32 v).toInt = (v + 2147483648) % 4294967296 - 2147483648 := by
  rw [wrap32, BitVec.toInt_ofInt, Int.bmod_def]
  norm_num
  omega

/-- A value that fits is not changed by the wrap (R12). -/
theorem wrap32_toInt_of_fits {v : Int} (h1 : -2147483648 ≤ v) (h2 : v ≤ 2147483647) :
    (wrap32 v).toInt = v := by
  rw [wrap32_toInt]
  omega

theorem fits32_iff (v : Int) : fits32 v = true ↔ -2147483648 ≤ v ∧ v ≤ 2147483647 := by
  simp [fits32]

theorem addWraps_eq_false {a b : Word} (h1 : -2147483648 ≤ a.toInt + b.toInt)
    (h2 : a.toInt + b.toInt ≤ 2147483647) : addWraps a b = false := by
  simp [addWraps, fits32_iff, h1, h2]

/-- A 16-bit integer narrowed to 16 bits is itself. -/
theorem ofInt16_toInt {v : Int} (h1 : -32768 ≤ v) (h2 : v ≤ 32767) : (BitVec.ofInt 16 v).toInt = v := by
  rw [BitVec.toInt_ofInt, Int.bmod_def]
  norm_num
  omega

/-- Sign extension keeps the value (R11, R56). -/
theorem sext16_toInt (h : Half) : (sext16 h).toInt = h.toInt := by
  have := half_range h
  exact wrap32_toInt_of_fits (by omega) (by omega)

/-- The low half of a sign-extended value is the value (R56). -/
theorem lowHalf_sext16 (h : Half) : lowHalf (sext16 h) = h := by
  apply BitVec.eq_of_toNat_eq
  have hl := h.isLt
  simp only [lowHalf, sext16, BitVec.toNat_ofNat, BitVec.toNat_ofInt, BitVec.toInt_eq_toNat_cond]
  split <;> omega

/-- `w[15:0]` as the library writes it. -/
theorem lowHalf_eq (w : Word) : lowHalf w = w.setWidth 16 := by
  apply BitVec.eq_of_toNat_eq
  simp [lowHalf]

/-- Sign extension as the library writes it. -/
theorem sext16_eq (h : Half) : sext16 h = h.signExtend 32 := rfl

/-- `{hi, lo}` as the library writes it. -/
theorem pack16_eq (hi lo : Half) : pack16 hi lo = (hi ++ lo : BitVec 32) := by
  apply BitVec.eq_of_toNat_eq
  have h1 := hi.isLt
  have h2 := lo.isLt
  rw [BitVec.toNat_append, ← Nat.shiftLeft_add_eq_or_of_lt h2]
  simp only [pack16, BitVec.toNat_ofNat, Nat.shiftLeft_eq]
  omega

/-- `w[i]` as the library writes it. -/
theorem bit_eq (w : Word) (i : Nat) : bit w i = w.getLsbD i := by
  rw [bit, BitVec.getLsbD, Nat.testBit_eq_decide_div_mod_eq]
  rfl

theorem pack16_low (hi lo : Half) : lowHalf (pack16 hi lo) = lo := by
  apply BitVec.eq_of_toNat_eq
  have h1 := hi.isLt
  have h2 := lo.isLt
  simp only [lowHalf, pack16, BitVec.toNat_ofNat]
  omega

end Sys2Proof.Machine
end

