-- ==== Sys2Proof/Laws/Memory.lean ====
section
/-! SUPPORT. The buffer memory: read after write, the canonical form, and the buffer words on top. -/

namespace Sys2Proof.Machine

theorem get_set_same (m : Memory) (a : Nat) (v : Byte) : Memory.get? (Memory.set m a v) a = some v := by
  induction m with
  | nil => simp [Memory.set, Memory.get?]
  | cons p m ih =>
    obtain ⟨x, b⟩ := p
    rw [Memory.set]
    split
    · simp [Memory.get?]
    · split
      · simp [Memory.get?]
      · rename_i h1 h2
        rw [Memory.get?, if_neg h2, ih]

theorem get_set_other (m : Memory) {a x : Nat} (v : Byte) (h : x ≠ a) :
    Memory.get? (Memory.set m a v) x = Memory.get? m x := by
  induction m with
  | nil => simp [Memory.set, Memory.get?, h]
  | cons p m ih =>
    obtain ⟨y, b⟩ := p
    rw [Memory.set]
    split
    · simp [Memory.get?, h]
    · split
      · rename_i h1 h2
        subst h2
        simp [Memory.get?, h]
      · simp [Memory.get?, ih]

/-- Every entry after a write is the written one or an old one. -/
theorem mem_set {m : Memory} {a : Nat} {v : Byte} {p : Host.Cell} (h : p ∈ Memory.set m a v) :
    p = (a, v) ∨ p ∈ m := by
  induction m with
  | nil => simpa [Memory.set] using h
  | cons q m ih =>
    obtain ⟨y, b⟩ := q
    rw [Memory.set] at h
    split at h
    · simpa using h
    · split at h
      · rcases List.mem_cons.mp h with h | h
        · exact .inl h
        · exact .inr (List.mem_cons_of_mem _ h)
      · rcases List.mem_cons.mp h with h | h
        · exact .inr (h ▸ List.mem_cons_self)
        · exact (ih h).imp_right (List.mem_cons_of_mem _)

/-- A write keeps the canonical form. -/
theorem set_wf {m : Memory} (a : Nat) (v : Byte) (h : Memory.wf m) : Memory.wf (Memory.set m a v) := by
  induction m with
  | nil => simp [Memory.set, Memory.wf]
  | cons q m ih =>
    obtain ⟨y, b⟩ := q
    have hq : ∀ p ∈ m, y < p.1 := (List.pairwise_cons.mp h).1
    have hm : Memory.wf m := (List.pairwise_cons.mp h).2
    rw [Memory.set]
    split
    · rename_i h1
      refine List.pairwise_cons.mpr ⟨fun p hp => ?_, h⟩
      rcases List.mem_cons.mp hp with rfl | hp
      · exact h1
      · exact h1.trans (hq p hp)
    · split
      · rename_i h1 h2
        subst h2
        exact List.pairwise_cons.mpr ⟨hq, hm⟩
      · rename_i h1 h2
        refine List.pairwise_cons.mpr ⟨fun p hp => ?_, ih hm⟩
        rcases mem_set hp with rfl | hp
        · exact lt_of_le_of_ne (not_lt.mp h1) (Ne.symm h2)
        · exact hq p hp

/-! ### Bytes and buffer words of a state -/

variable (s : State)

/-- The read of a byte depends on the written bytes and the reset count alone. -/
theorem byteAt_congr {s t : State} (hm : t.mem = s.mem) (he : t.epoch = s.epoch) (a : Nat) :
    t.byteAt a = s.byteAt a := by simp [State.byteAt, hm, he]

theorem halfAt_congr {s t : State} {a : Nat} (h0 : t.byteAt a = s.byteAt a)
    (h1 : t.byteAt (a + 1) = s.byteAt (a + 1)) : t.halfAt a = s.halfAt a := by
  simp [State.halfAt, h0, h1]

theorem byteAt_setHalf_low (a : Nat) (h : Half) : (s.setHalf a h).byteAt a = lowByte h := by
  simp [State.byteAt, get_set_other, get_set_same]

theorem byteAt_setHalf_high (a : Nat) (h : Half) : (s.setHalf a h).byteAt (a + 1) = highByte h := by
  simp [State.byteAt, get_set_same]

/-- A stored word changes its own two byte lanes and no other byte. -/
theorem byteAt_setHalf_other {a x : Nat} (h : Half) (h0 : x ≠ a) (h1 : x ≠ a + 1) :
    (s.setHalf a h).byteAt x = s.byteAt x := by
  simp [State.byteAt, get_set_other, h0, h1]

theorem ofBytes_lanes (h : Half) : ofBytes (highByte h) (lowByte h) = h := by
  apply BitVec.eq_of_toNat_eq
  have := h.isLt
  simp only [ofBytes, highByte, lowByte, BitVec.toNat_ofNat]
  omega

/-- A buffer word reads as it was stored. -/
theorem halfAt_setHalf_same (a : Nat) (h : Half) : (s.setHalf a h).halfAt a = h := by
  rw [State.halfAt, byteAt_setHalf_high, byteAt_setHalf_low, ofBytes_lanes]

theorem halfAt_setHalf_other {a x : Nat} (h : Half) (hx : x + 1 < a ∨ a + 1 < x) :
    (s.setHalf a h).halfAt x = s.halfAt x := by
  rw [State.halfAt, byteAt_setHalf_other _ _ (by omega) (by omega),
    byteAt_setHalf_other _ _ (by omega) (by omega), State.halfAt]

theorem obuf_setObuf_same (j : Nat) (h : Half) : (s.setObuf j h).obuf j = h :=
  halfAt_setHalf_same s _ h

theorem obuf_setObuf_other {i j : Nat} (h : Half) (hij : i ≠ j) : (s.setObuf j h).obuf i = s.obuf i :=
  halfAt_setHalf_other s h (by simp only [obufAddr]; omega)

theorem ibuf_setIbuf_same (k : Nat) (h : Half) : (s.setIbuf k h).ibuf k = h :=
  halfAt_setHalf_same s _ h

theorem ibuf_setIbuf_other {i k : Nat} (h : Half) (hik : i ≠ k) : (s.setIbuf k h).ibuf i = s.ibuf i :=
  halfAt_setHalf_other s h (by simp only [ibufAddr]; omega)

/-- The buffers are distinct storage (R60): no store to `OBUF` reaches an `IBUF` word. -/
theorem ibuf_setObuf {k : Nat} (hk : k < 1024) (j : Nat) (h : Half) :
    (s.setObuf j h).ibuf k = s.ibuf k :=
  halfAt_setHalf_other s h (by simp only [ibufAddr, obufAddr]; omega)

/-- `IBUF` words are those of the bytes and the reset count. -/
theorem ibuf_congr {s t : State} (hm : t.mem = s.mem) (he : t.epoch = s.epoch) (k : Nat) :
    t.ibuf k = s.ibuf k :=
  halfAt_congr (byteAt_congr hm he _) (byteAt_congr hm he _)

theorem obuf_congr {s t : State} (hm : t.mem = s.mem) (he : t.epoch = s.epoch) (j : Nat) :
    t.obuf j = s.obuf j :=
  halfAt_congr (byteAt_congr hm he _) (byteAt_congr hm he _)

/-- Storing a word at one of its buffer's offsets keeps the memory legal. -/
theorem setHalf_memoryLegal {s : State} {a : Nat} (h : Half) (hs : s.memoryLegal)
    (h0 : isBufferByte s.ibufDepth a) (h1 : isBufferByte s.ibufDepth (a + 1)) :
    (s.setHalf a h).memoryLegal := by
  refine ⟨set_wf _ _ (set_wf _ _ hs.1), fun p hp => ?_⟩
  rcases mem_set hp with rfl | hp
  · exact h1
  · rcases mem_set hp with rfl | hp
    · exact h0
    · exact hs.2 p hp

theorem setIbuf_memoryLegal {s : State} {k : Nat} (h : Half) (hs : s.memoryLegal) (hk : k < s.ibufDepth) :
    (s.setIbuf k h).memoryLegal :=
  setHalf_memoryLegal h hs (by simp only [isBufferByte, ibufAddr]; omega)
    (by simp only [isBufferByte, ibufAddr]; omega)

theorem setObuf_memoryLegal {s : State} {j : Nat} (h : Half) (hs : s.memoryLegal)
    (hj : j < 2 * s.ibufDepth) : (s.setObuf j h).memoryLegal :=
  setHalf_memoryLegal h hs (by simp only [isBufferByte, obufAddr]; omega)
    (by simp only [isBufferByte, obufAddr]; omega)

/-- Legality of the memory depends on the memory and the depth alone. -/
theorem memoryLegal_congr {s t : State} (hm : t.mem = s.mem) (hd : t.ibufDepthPred = s.ibufDepthPred)
    (hs : s.memoryLegal) : t.memoryLegal := by
  simpa [State.memoryLegal, State.ibufDepth, hm, hd] using hs

/-- Every depth is in 1..1024 (R9). -/
theorem ibufDepth_range : 1 ≤ s.ibufDepth ∧ s.ibufDepth ≤ 1024 := by
  have := s.ibufDepthPred.isLt
  simp only [State.ibufDepth]
  omega

end Sys2Proof.Machine
end

