-- ==== Sys2Proof/Laws/Ops.lean ====
section
/-! SUPPORT. A command's life: what its checks, its acceptance or rejection and its completion can do. -/

namespace Sys2Proof.Machine

variable (s : State)

@[simp] theorem busy_idle {s : State} (h : s.seq = .idle) : s.busy = false := by simp [State.busy, h]

@[simp] theorem busy_run {s : State} {i : Instr} {k : Nat} {p : Phase} (h : s.seq = .run i k p) :
    s.busy = true := by simp [State.busy, h]

theorem busy_congr {s t : State} (h : t.seq = s.seq) : t.busy = s.busy := by simp [State.busy, h]

theorem busy_eq_false_iff {s : State} : s.busy = false ↔ s.seq = .idle := by
  cases h : s.seq <;> simp [State.busy, h]

theorem busy_eq_true_iff {s : State} : s.busy = true ↔ ∃ i k p, s.seq = .run i k p := by
  cases h : s.seq <;> simp [State.busy, h]

@[simp] theorem complete_busy : s.complete.busy = false := rfl

@[simp] theorem accept_busy (i : Instr) : (s.accept i).busy = true := rfl

/-- What a rejection leaves (R182). -/
theorem reject_eq_rejected (code : ErrCode) : s.beginCommand.reject code = s.rejected code := rfl

/-- The only errors a command's checks give (R181 checks 2 to 4). -/
theorem commandError_cases {i : Instr} {s : State} {c : ErrCode} (h : commandError i s = some c) :
    (c = .cmdNotCfg ∧ s.cfgv = false ∧ ((∃ n, i = .process n) ∨ i = .step)) ∨
    (c = .cmdBadLen ∧ s.cfgv = true ∧ ∃ n, i = .process n ∧ s.ibufDepth < n) ∨
    (c = .cfgInvalid ∧ i = .cfgCommit ∧ s.coefs.ok = false) := by
  cases i with
  | process n =>
    simp only [commandError] at h
    split at h
    · exact .inl ⟨by simpa using h.symm, ‹_›, .inl ⟨n, rfl⟩⟩
    · split at h
      · exact .inr (.inl ⟨by simpa using h.symm, by simpa using ‹¬s.cfgv = false›, n, rfl, ‹_›⟩)
      · cases h
  | step =>
    simp only [commandError] at h
    split at h
    · exact .inl ⟨by simpa using h.symm, ‹_›, .inr rfl⟩
    · cases h
  | cfgCommit =>
    simp only [commandError] at h
    split at h
    · exact .inr (.inr ⟨by simpa using h.symm, rfl, ‹_›⟩)
    · cases h
  | _ => cases h

/-- When the checks pass (R181). -/
theorem commandError_eq_none {i : Instr} {s : State} (h : commandError i s = none) :
    (∀ n, i = .process n → s.cfgv = true ∧ n ≤ s.ibufDepth) ∧ (i = .step → s.cfgv = true) ∧
    (i = .cfgCommit → s.coefs.ok = true) := by
  refine ⟨fun n hi => ?_, fun hi => ?_, fun hi => ?_⟩ <;> subst hi
  · simp only [commandError] at h
    split at h
    · cases h
    · split at h
      · cases h
      · exact ⟨by simpa using ‹¬s.cfgv = false›, not_lt.mp ‹_›⟩
  · simpa [commandError] using h
  · simpa [commandError] using h

/-- The checks read `CFGV`, the coefficients and the depth, nothing else. -/
theorem commandError_congr {s t : State} (i : Instr) (h1 : t.cfgv = s.cfgv) (h2 : t.coefs = s.coefs)
    (h3 : t.ibufDepthPred = s.ibufDepthPred) : commandError i t = commandError i s := by
  have hd : t.ibufDepth = s.ibufDepth := by simp [State.ibufDepth, h3]
  cases i <;> simp only [commandError, h1, h2, hd]

theorem runCommand_accepted {i : Instr} {s : State} (body : State → State)
    (h : commandError i s = none) : s.runCommand i body = (body (s.beginCommand.accept i)).complete := by
  simp [State.runCommand, h]

theorem runCommand_rejected {i : Instr} {s : State} {c : ErrCode} (body : State → State)
    (h : commandError i s = some c) : s.runCommand i body = s.rejected c := by
  simp [State.runCommand, h, reject_eq_rejected]

/-- A command ends in a rejection, or in the completion of its body (R71). -/
theorem runCommand_cases (i : Instr) (body : State → State) :
    (∃ c, commandError i s = some c ∧ s.runCommand i body = s.rejected c) ∨
    (commandError i s = none ∧ s.runCommand i body = (body (s.beginCommand.accept i)).complete) := by
  cases h : commandError i s with
  | none => exact .inr ⟨rfl, runCommand_accepted body h⟩
  | some c => exact .inl ⟨c, rfl, runCommand_rejected body h⟩

/-- An issued command is rejected, or running at its first position (R71). -/
theorem issue_cases (i : Instr) :
    (∃ c, commandError i s = some c ∧ s.issue i = s.rejected c) ∨
    (commandError i s = none ∧ s.issue i = s.beginCommand.accept i) := by
  cases h : commandError i s with
  | none => exact .inr ⟨rfl, by simp [State.issue, h]⟩
  | some c => exact .inl ⟨c, rfl, by simp [State.issue, h, reject_eq_rejected]⟩

/-! ### The meanings, by their bodies -/

/-- The effect a meaning runs once its command is accepted. -/
def bodyOf : Instr → State → State
  | .nop => nopBody
  | .process n => processLoop n 0
  | .step => stepBody
  | .clearState => clearStateBody
  | .cfgCommit => cfgCommitBody
  | .toFixed => toFixedBody
  | .smul => smulBody
  | .smla => smlaBody
  | .asr => asrBody
  | .sat16 => sat16Body
  | .add32 => add32Body
  | .sub32 => sub32Body
  | .gain => gainBody

/-- Every meaning is its command run as one transition around its body. -/
theorem exec_eq (i : Instr) : exec i s = .next (s.runCommand i (bodyOf i)) := by cases i <;> rfl

/-- Once: what a command can do. It is rejected with one of three codes, or its body runs from the
accepted state and completes. -/
theorem exec_cases (i : Instr) :
    (∃ c, commandError i s = some c ∧ exec i s = .next (s.rejected c)) ∨
    (commandError i s = none ∧ exec i s = .next (bodyOf i (s.beginCommand.accept i)).complete) := by
  rw [exec_eq]
  exact (runCommand_cases s i (bodyOf i)).imp (fun ⟨c, h, e⟩ => ⟨c, h, by rw [e]⟩)
    (fun ⟨h, e⟩ => ⟨h, by rw [e]⟩)

end Sys2Proof.Machine
end

