-- ==== Sys2Proof/Laws/Bus.lean ====
section
/-! SUPPORT. Host accesses: what the address map, the bus checks, a read, a write and an event can do. -/

namespace Sys2Proof.Machine

/-- A register location is no buffer word. -/
theorem locateRegister_not_buffer {off : Nat} {l : Loc} (h : locateRegister off = some l) :
    (∀ k, l ≠ .ibuf k) ∧ ∀ j, l ≠ .obuf j := by
  unfold locateRegister at h
  split at h <;> first | (cases h; exact ⟨fun _ => nofun, fun _ => nofun⟩) | cases h

/-- Once: what the address map answers (R52). -/
theorem locate_cases {depth off : Nat} {l : Loc} (h : locate depth off = some l) :
    (off < 0x1000 ∧ locateRegister off = some l) ∨
    (∃ k, l = .ibuf k ∧ k < depth ∧ 0x1000 ≤ off ∧ off < 0x2000 ∧ k = (off - 0x1000) / 4) ∨
    (∃ j, l = .obuf j ∧ j < 2 * depth ∧ 0x2000 ≤ off ∧ j = (off - 0x2000) / 4) := by
  unfold locate at h
  split at h
  · exact .inl ⟨‹_›, h⟩
  · split at h
    · split at h
      · exact .inr (.inl ⟨_, by simpa using h.symm, ‹_›, by omega, by omega, rfl⟩)
      · cases h
    · split at h
      · exact .inr (.inr ⟨_, by simpa using h.symm, ‹_›, by omega, rfl⟩)
      · cases h

/-- The buffer words a host can reach are those of the core's depth (R52). -/
theorem locate_bounds {depth off : Nat} {l : Loc} (h : locate depth off = some l) :
    (∀ k, l = .ibuf k → k < depth) ∧ ∀ j, l = .obuf j → j < 2 * depth := by
  rcases locate_cases h with ⟨_, h⟩ | ⟨k, rfl, hk, _⟩ | ⟨j, rfl, hj, _⟩
  · exact ⟨fun k e => absurd e ((locateRegister_not_buffer h).1 k),
      fun j e => absurd e ((locateRegister_not_buffer h).2 j)⟩
  · exact ⟨fun k' e => by cases e; exact hk, fun _ => nofun⟩
  · exact ⟨fun _ => nofun, fun j' e => by cases e; exact hj⟩

/-- When an access reaches its location (R184). -/
theorem busCheck_reaches {a : Access} {bits : Nat} {off : BitVec 14} {s : State} {l : Loc}
    (h : busCheck a bits off s = .reaches l) :
    bits = 32 ∧ off.toNat % 4 = 0 ∧ locate s.ibufDepth off.toNat = some l ∧
      l.blocked a s.busy = false ∧ l.denied a = false := by
  unfold busCheck at h
  split at h
  · rename_i hw
    simp only [wordAccess, Bool.and_eq_true, decide_eq_true_eq] at hw
    split at h
    · cases h
    · split at h
      · cases h
      · rename_i hb
        split at h
        · cases h
        · rename_i hd
          cases h
          exact ⟨hw.1, hw.2, ‹_›, by simpa using hb, by simpa using hd⟩
  · cases h

/-- The access that reaches a location is a 32-bit one at that location's own offset (R52, R54). -/
theorem busCheck_reaches_offset {a : Access} {bits : Nat} {off : BitVec 14} {s : State} {l : Loc}
    (h : busCheck a bits off s = .reaches l) : bits = 32 ∧ off = BitVec.ofNat 14 l.offset := by
  obtain ⟨hb, ha, hl, _, _⟩ := busCheck_reaches h
  refine ⟨hb, BitVec.eq_of_toNat_eq ?_⟩
  rcases locate_cases hl with ⟨_, hr⟩ | ⟨k, rfl, _⟩ | ⟨j, rfl, _⟩
  · unfold locateRegister at hr
    split at hr <;> first | (rename_i ho; cases hr; rw [ho]; rfl) | cases hr
  · simp only [Loc.offset, ibufAddr, BitVec.toNat_ofNat]
    omega
  · simp only [Loc.offset, obufAddr, BitVec.toNat_ofNat]
    omega

/-- A read changes nothing but the error record and the values read (R58). -/
theorem busRead_eq (bits : Nat) (off : BitVec 14) (s : State) :
    ∃ v e, busRead bits off s = { s with reads := s.reads ++ [v], errcause := e } ∧
      (s.errcause ≠ .none → e = s.errcause) := by
  unfold busRead
  split
  · exact ⟨_, s.errcause, rfl, fun _ => rfl⟩
  · refine ⟨0, _, rfl, fun h => ?_⟩
    simp [h]

/-- Once: what a write can do. It is refused, or it writes its location, or it issues a command. -/
theorem busWrite_cases (bits : Nat) (off : BitVec 14) (w : Word) (s : State) :
    (∃ code, busCheck .write bits off s = .refused code ∧
      busWrite bits off w s = .done (s.raiseError code)) ∨
    (busCheck .write bits off s = .reaches .cmd ∧ busWrite bits off w s = .command w s) ∨
    (∃ l, l ≠ .cmd ∧ busCheck .write bits off s = .reaches l ∧
      busWrite bits off w s = .done (s.writeLoc l w)) := by
  unfold busWrite
  split
  · exact .inr (.inl ⟨‹_›, rfl⟩)
  · rename_i l hl h
    exact .inr (.inr ⟨l, hl, h, rfl⟩)
  · exact .inl ⟨_, ‹_›, rfl⟩

/-- Only `STATUS` and `ERRCAUSE` are written while a command runs (R59). -/
theorem writable_of_busy {l : Loc} {bits : Nat} {off : BitVec 14} {s : State}
    (h : busCheck .write bits off s = .reaches l) (hb : s.busy = true) : l = .status ∨ l = .errcause := by
  have := (busCheck_reaches h).2.2.2.1
  simp only [Loc.blocked, hb, Bool.true_and, Bool.not_eq_false', Loc.writableBusy, Bool.or_eq_true,
    decide_eq_true_eq] at this
  exact this

/-! ### What a register write leaves -/

variable (s : State) (l : Loc) (w : Word)

@[simp] theorem writeLoc_seq : (s.writeLoc l w).seq = s.seq := by cases l <;> rfl
@[simp] theorem writeLoc_res : (s.writeLoc l w).res = s.res := by cases l <;> rfl
@[simp] theorem writeLoc_ovfPend : (s.writeLoc l w).ovfPend = s.ovfPend := by cases l <;> rfl
@[simp] theorem writeLoc_ibufDepthPred : (s.writeLoc l w).ibufDepthPred = s.ibufDepthPred := by
  cases l <;> rfl
@[simp] theorem writeLoc_host : (s.writeLoc l w).host = s.host := by cases l <;> rfl
@[simp] theorem writeLoc_reads : (s.writeLoc l w).reads = s.reads := by cases l <;> rfl
@[simp] theorem writeLoc_epoch : (s.writeLoc l w).epoch = s.epoch := by cases l <;> rfl
@[simp] theorem writeLoc_draws : (s.writeLoc l w).draws = s.draws := by cases l <;> rfl
@[simp] theorem writeLoc_slack : (s.writeLoc l w).slack = s.slack := by cases l <;> rfl

/-- Once: what serving an event can do. A read or a poll delivers a value; a write is refused, stores, or
issues a command; a reset resets. -/
theorem serve_cases (e : HostEvent) (s : State) :
    (∃ bits off, e = .read bits off ∧ serve e s = .done (busRead bits off s)) ∨
    (∃ bits off w, e = .write bits off w ∧
      ((∃ code, busCheck .write bits off s = .refused code ∧ serve e s = .done (s.raiseError code)) ∨
       (busCheck .write bits off s = .reaches .cmd ∧ serve e s = .command w s) ∨
       (∃ l, l ≠ .cmd ∧ busCheck .write bits off s = .reaches l ∧
         serve e s = .done (s.writeLoc l w)))) ∨
    (e = .wait ∧ serve e s = .done (pollStatus s)) ∨
    (e = .reset ∧ serve e s = .done s.resetEvent) := by
  cases e with
  | read bits off => exact .inl ⟨bits, off, rfl, rfl⟩
  | write bits off w => exact .inr (.inl ⟨bits, off, w, rfl, busWrite_cases bits off w s⟩)
  | wait => exact .inr (.inr (.inl ⟨rfl, rfl⟩))
  | reset => exact .inr (.inr (.inr ⟨rfl, rfl⟩))

end Sys2Proof.Machine
end

