-- ==== Sys2Proof/Laws/Filter.lean ====
section
/-! SUPPORT. The filter commands: what one sample and the loop of `PROCESS` change (R152, R154). -/

namespace Sys2Proof.Machine

variable (s : State) (k : Nat)

@[simp] theorem processSample_coefs : (processSample k s).coefs = s.coefs := rfl
@[simp] theorem processSample_opa : (processSample k s).opa = s.opa := rfl
@[simp] theorem processSample_opb : (processSample k s).opb = s.opb := rfl
@[simp] theorem processSample_opc : (processSample k s).opc = s.opc := rfl
@[simp] theorem processSample_res : (processSample k s).res = s.res := rfl
@[simp] theorem processSample_done : (processSample k s).done = s.done := rfl
@[simp] theorem processSample_cfgv : (processSample k s).cfgv = s.cfgv := rfl
@[simp] theorem processSample_ovf : (processSample k s).ovf = s.ovf := rfl
@[simp] theorem processSample_errcause : (processSample k s).errcause = s.errcause := rfl
@[simp] theorem processSample_seq : (processSample k s).seq = s.seq := rfl
@[simp] theorem processSample_ibufDepthPred : (processSample k s).ibufDepthPred = s.ibufDepthPred := rfl
@[simp] theorem processSample_host : (processSample k s).host = s.host := rfl
@[simp] theorem processSample_reads : (processSample k s).reads = s.reads := rfl
@[simp] theorem processSample_epoch : (processSample k s).epoch = s.epoch := rfl
@[simp] theorem processSample_draws : (processSample k s).draws = s.draws := rfl
@[simp] theorem processSample_slack : (processSample k s).slack = s.slack := rfl
@[simp] theorem processSample_cells :
    (processSample k s).cells = (sampleStep s.coefs s.cells (s.ibuf k)).cells := rfl
@[simp] theorem processSample_ovfPend : (processSample k s).ovfPend =
    (s.ovfPend || (sampleStep s.coefs s.cells (s.ibuf k)).wrapped) := rfl
theorem processSample_mem : (processSample k s).mem =
    ((s.setObuf (2 * k) (sampleStep s.coefs s.cells (s.ibuf k)).yE).setObuf (2 * k + 1)
      (sampleStep s.coefs s.cells (s.ibuf k)).yO).mem := rfl

/-- One sample changes the cells, `OVF_PEND` and the buffer memory, nothing else (R152). -/
theorem processSample_frame :
    processSample k s = { s with
      cells := (processSample k s).cells
      ovfPend := (processSample k s).ovfPend
      mem := (processSample k s).mem } := rfl

/-- The loop changes the cells, `OVF_PEND` and the buffer memory, nothing else (R152). -/
theorem processLoop_frame (left k : Nat) (s : State) :
    processLoop left k s = { s with
      cells := (processLoop left k s).cells
      ovfPend := (processLoop left k s).ovfPend
      mem := (processLoop left k s).mem } := by
  induction left generalizing k s with
  | zero => rfl
  | succ left ih =>
    rw [processLoop, ih (k + 1) (processSample k s)]
    simp only [processSample_coefs, processSample_opa, processSample_opb, processSample_opc,
      processSample_res, processSample_done, processSample_cfgv, processSample_ovf,
      processSample_errcause, processSample_seq, processSample_ibufDepthPred, processSample_host,
      processSample_reads, processSample_epoch, processSample_draws, processSample_slack]

theorem processLoop_coefs (left k : Nat) (s : State) : (processLoop left k s).coefs = s.coefs := by
  rw [processLoop_frame]
theorem processLoop_cfgv (left k : Nat) (s : State) : (processLoop left k s).cfgv = s.cfgv := by
  rw [processLoop_frame]
theorem processLoop_ovf (left k : Nat) (s : State) : (processLoop left k s).ovf = s.ovf := by
  rw [processLoop_frame]
theorem processLoop_errcause (left k : Nat) (s : State) :
    (processLoop left k s).errcause = s.errcause := by rw [processLoop_frame]
theorem processLoop_ibufDepthPred (left k : Nat) (s : State) :
    (processLoop left k s).ibufDepthPred = s.ibufDepthPred := by rw [processLoop_frame]
theorem processLoop_epoch (left k : Nat) (s : State) : (processLoop left k s).epoch = s.epoch := by
  rw [processLoop_frame]
theorem processLoop_host (left k : Nat) (s : State) : (processLoop left k s).host = s.host := by
  rw [processLoop_frame]

/-- One sample stores to the lanes of `OBUF[2k]` and `OBUF[2k+1]` and to no other byte (R154). -/
theorem processSample_byteAt {a : Nat} (h0 : a ≠ obufAddr (2 * k)) (h1 : a ≠ obufAddr (2 * k) + 1)
    (h2 : a ≠ obufAddr (2 * k + 1)) (h3 : a ≠ obufAddr (2 * k + 1) + 1) :
    (processSample k s).byteAt a = s.byteAt a := by
  rw [byteAt_congr (s := (s.setObuf (2 * k) _).setObuf (2 * k + 1) _) (processSample_mem s k) rfl a]
  rw [State.setObuf, byteAt_setHalf_other _ _ h2 h3, State.setObuf, byteAt_setHalf_other _ _ h0 h1]

/-- The loop stores to the lanes of the `OBUF` words of its samples and to no other byte (R152). -/
theorem processLoop_byteAt (left k : Nat) (s : State) {a : Nat}
    (h : ∀ j, 2 * k ≤ j → j < 2 * (k + left) → a ≠ obufAddr j ∧ a ≠ obufAddr j + 1) :
    (processLoop left k s).byteAt a = s.byteAt a := by
  induction left generalizing k s with
  | zero => rfl
  | succ left ih =>
    rw [processLoop, ih (k + 1) _ fun j h1 h2 => h j (by omega) (by omega)]
    have e := h (2 * k) (by omega) (by omega)
    have o := h (2 * k + 1) (by omega) (by omega)
    exact processSample_byteAt s k e.1 e.2 o.1 o.2

/-- No sample changes an `IBUF` word (R60). -/
theorem processSample_ibuf {i : Nat} (hi : i < 1024) : (processSample k s).ibuf i = s.ibuf i := by
  rw [ibuf_congr (s := (s.setObuf (2 * k) _).setObuf (2 * k + 1) _) (processSample_mem s k) rfl i,
    ibuf_setObuf _ hi, ibuf_setObuf _ hi]

end Sys2Proof.Machine
end

