-- ==== Sys2Proof/Laws/PerInstr.lean ====
section
/-! SUPPORT. A statement about every command as syntax, one lemma per constructor of `Instr`: the word of
a well-formed command has the fields of R70 and stands in exactly the row of R73 with its mnemonic. -/

namespace Sys2Proof.Laws

/-- The row of R73 with this mnemonic is the one row the word is in. -/
def onlyRow (mnemonic : String) (w : Word) : Prop :=
  (opcodeTable.filter (·.matches w)).map OpcodeRow.mnemonic = [mnemonic]

/-- The mnemonic of a command in the table of R73. -/
def mnemonic : Instr → String
  | .nop => "NOP"
  | .process _ => "PROCESS"
  | .step => "STEP"
  | .clearState => "CLEAR_STATE"
  | .cfgCommit => "CFG_COMMIT"
  | .toFixed => "TOFIXED"
  | .smul => "SMUL"
  | .smla => "SMLA"
  | .asr => "ASR"
  | .sat16 => "SAT16"
  | .add32 => "ADD32"
  | .sub32 => "SUB32"
  | .gain => "GAIN"

/-- `OP`, `RSV` and `ARG` of the word of a well-formed command (R70), and its row (R73). -/
def EncodingFields.Statement (i : Instr) : Prop :=
  i.wellFormed = true →
    opField (encode i) = opcode i ∧ rsvField (encode i) = 0 ∧ argField (encode i) = argument i ∧
    onlyRow (mnemonic i) (encode i)

theorem EncodingFields.nop : EncodingFields.Statement .nop := fun _ => by unfold onlyRow; decide
theorem EncodingFields.step : EncodingFields.Statement .step := fun _ => by unfold onlyRow; decide
theorem EncodingFields.clearState : EncodingFields.Statement .clearState := fun _ => by
  unfold onlyRow; decide
theorem EncodingFields.cfgCommit : EncodingFields.Statement .cfgCommit := fun _ => by
  unfold onlyRow; decide
theorem EncodingFields.toFixed : EncodingFields.Statement .toFixed := fun _ => by unfold onlyRow; decide
theorem EncodingFields.smul : EncodingFields.Statement .smul := fun _ => by unfold onlyRow; decide
theorem EncodingFields.smla : EncodingFields.Statement .smla := fun _ => by unfold onlyRow; decide
theorem EncodingFields.asr : EncodingFields.Statement .asr := fun _ => by unfold onlyRow; decide
theorem EncodingFields.sat16 : EncodingFields.Statement .sat16 := fun _ => by unfold onlyRow; decide
theorem EncodingFields.add32 : EncodingFields.Statement .add32 := fun _ => by unfold onlyRow; decide
theorem EncodingFields.sub32 : EncodingFields.Statement .sub32 := fun _ => by unfold onlyRow; decide
theorem EncodingFields.gain : EncodingFields.Statement .gain := fun _ => by unfold onlyRow; decide

/-- The word of `PROCESS N`, for an `N` that fits. -/
theorem process_word_toNat (n : Nat) (h : n < 65536) : (encode (.process n)).toNat = n * 65536 + 1 := by
  simp [encode, argument, opcode]; omega

/-- A row whose mask is all ones holds its own word only. -/
theorem full_mask_match (w b : Word) : (w &&& 0xFFFFFFFF == b) = (w == b) := by
  rw [show (0xFFFFFFFF : Word) = BitVec.allOnes 32 from rfl, BitVec.and_allOnes]

theorem EncodingFields.process (n : Nat) : EncodingFields.Statement (.process n) := fun h => by
  have hn : n < 65536 := by simpa [Instr.wellFormed] using h
  have hw := process_word_toNat n hn
  refine ⟨?_, ?_, ?_, ?_⟩
  · simp only [opField, hw, opcode]; omega
  · simp only [rsvField, hw]; omega
  · simp only [argField, hw, argument]; omega
  · have other : ∀ b : Word, b.toNat % 65536 ≠ 1 → (encode (.process n) == b) = false := by
      intro b hb
      rw [beq_eq_false_iff_ne]
      intro e
      rw [← e, hw] at hb
      omega
    have own : (encode (.process n) &&& 0x0000FFFF == (1 : Word)) = true := by
      rw [beq_iff_eq]
      apply BitVec.eq_of_toNat_eq
      rw [BitVec.toNat_and, hw, show (0x0000FFFF : Word).toNat = 2 ^ 16 - 1 from rfl, Nat.and_two_pow_sub_one_eq_mod,
        show (1 : Word).toNat = 1 from rfl]
      omega
    simp only [onlyRow, opcodeTable, List.filter, OpcodeRow.matches, full_mask_match, own]
    simp [other, mnemonic]

end Sys2Proof.Laws
end

