-- ==== Sys2Proof/Laws/Sequencer.lean ====
section
/-! SUPPORT. Once: what a body, a meaning and a turn of the sequencer can change. -/

namespace Sys2Proof.Machine

/-- The commands that write the cells (R21). -/
def writesCells : Instr → Bool
  | .process _ => true
  | .step => true
  | .clearState => true
  | .nop => false
  | .cfgCommit => false
  | .toFixed => false
  | .smul => false
  | .smla => false
  | .asr => false
  | .sat16 => false
  | .add32 => false
  | .sub32 => false
  | .gain => false

/-- `t` is `s` but for what an accepted command may write before it completes: the cells, the buffer
memory, `OVF_PEND`, `RES`, `CFGV` and the position. -/
structure BodyFrame (s t : State) : Prop where
  coefs : t.coefs = s.coefs
  opa : t.opa = s.opa
  opb : t.opb = s.opb
  opc : t.opc = s.opc
  done : t.done = s.done
  ovf : t.ovf = s.ovf
  errcause : t.errcause = s.errcause
  ibufDepthPred : t.ibufDepthPred = s.ibufDepthPred
  host : t.host = s.host
  reads : t.reads = s.reads
  epoch : t.epoch = s.epoch
  draws : t.draws = s.draws
  slack : t.slack = s.slack

theorem BodyFrame.refl (s : State) : BodyFrame s s := by constructor <;> rfl

theorem BodyFrame.trans {s t u : State} (h : BodyFrame s t) (h' : BodyFrame t u) : BodyFrame s u := by
  constructor
  · exact h'.coefs.trans h.coefs
  · exact h'.opa.trans h.opa
  · exact h'.opb.trans h.opb
  · exact h'.opc.trans h.opc
  · exact h'.done.trans h.done
  · exact h'.ovf.trans h.ovf
  · exact h'.errcause.trans h.errcause
  · exact h'.ibufDepthPred.trans h.ibufDepthPred
  · exact h'.host.trans h.host
  · exact h'.reads.trans h.reads
  · exact h'.epoch.trans h.epoch
  · exact h'.draws.trans h.draws
  · exact h'.slack.trans h.slack

theorem writeRes_bodyFrame (s : State) (r : Word) (w : Bool) : BodyFrame s (s.writeRes r w) := by
  constructor <;> simp

theorem processLoop_bodyFrame (left k : Nat) (s : State) : BodyFrame s (processLoop left k s) := by
  rw [processLoop_frame]
  constructor <;> rfl

/-- A body changes the cells, the buffer memory, `OVF_PEND`, `RES` and `CFGV`, nothing else. -/
theorem bodyOf_bodyFrame (i : Instr) (s : State) : BodyFrame s (bodyOf i s) := by
  cases i with
  | nop => exact .refl s
  | process n => exact processLoop_bodyFrame n 0 s
  | step => unfold bodyOf stepBody; constructor <;> simp
  | clearState => unfold bodyOf clearStateBody; constructor <;> rfl
  | cfgCommit => unfold bodyOf cfgCommitBody; constructor <;> rfl
  | _ => exact writeRes_bodyFrame s _ _

/-- Only `CFG_COMMIT` writes `CFGV`, and its body sets it (R36). -/
theorem bodyOf_cfgv (i : Instr) (s : State) :
    (bodyOf i s).cfgv = if i = .cfgCommit then true else s.cfgv := by
  cases i with
  | process n => simp [bodyOf, processLoop_cfgv]
  | _ => simp [bodyOf, nopBody, stepBody, clearStateBody, cfgCommitBody, toFixedBody, smulBody, smlaBody, asrBody, sat16Body, add32Body, sub32Body, gainBody]

/-- Only `PROCESS`, `STEP` and `CLEAR_STATE` write the cells (R21). -/
theorem bodyOf_cells {i : Instr} (s : State) (h : writesCells i = false) :
    (bodyOf i s).cells = s.cells := by
  cases i with
  | process n => cases h
  | step => cases h
  | clearState => cases h
  | _ => simp [bodyOf, nopBody, cfgCommitBody, toFixedBody, smulBody, smlaBody, asrBody, sat16Body, add32Body, sub32Body, gainBody]

/-- Only `PROCESS` writes the buffer memory (R41, R109). -/
theorem bodyOf_mem {i : Instr} (s : State) (h : ∀ n, i ≠ .process n) : (bodyOf i s).mem = s.mem := by
  cases i <;> first
    | exact absurd rfl (h _)
    | simp [bodyOf, nopBody, stepBody, clearStateBody, cfgCommitBody, toFixedBody, smulBody, smlaBody, asrBody, sat16Body, add32Body, sub32Body, gainBody]

/-- No body moves the sequencer. -/
theorem bodyOf_seq (i : Instr) (s : State) : (bodyOf i s).seq = s.seq := by
  cases i with
  | process n => simp only [bodyOf]; rw [processLoop_frame]
  | _ => simp [bodyOf, nopBody, stepBody, clearStateBody, cfgCommitBody, toFixedBody, smulBody, smlaBody, asrBody, sat16Body, add32Body, sub32Body, gainBody]

/-- What a turn of the sequencer does at a position of one of the one-turn commands: its body, then the
completion (R43). -/
theorem commandTurn_eq {i : Instr} (k : Nat) (p : Phase) (s : State) (h1 : ∀ n, i ≠ .process n)
    (h2 : i ≠ .step) : commandTurn i k p s = (bodyOf i s).complete := by
  cases i <;> first | rfl | exact absurd rfl (h1 _) | exact absurd rfl h2

/-- Once: what a turn of the sequencer can do. An idle core stays; a filter command does a phase; any
command can complete; each within the frame of a body. -/
theorem advance_cases (s : State) :
    (s.seq = .idle ∧ advance s = s) ∨
    (∃ n k, s.seq = .run (.process n) k .even ∧ k < n ∧ advance s = processEven n k s) ∨
    (∃ n k v y, s.seq = .run (.process n) k (.odd v y) ∧ advance s = processOdd n k v s) ∨
    (∃ n k, s.seq = .run (.process n) k .even ∧ ¬k < n ∧ advance s = s.complete) ∨
    (∃ k, s.seq = .run .step k .even ∧ advance s = stepTurn k .even s) ∨
    (∃ k v y, s.seq = .run .step k (.odd v y) ∧ advance s = stepTurn k (.odd v y) s) ∨
    (∃ i k p, s.seq = .run i k p ∧ (∀ n, i ≠ .process n) ∧ i ≠ .step ∧
      advance s = (bodyOf i s).complete) := by
  cases h : s.seq with
  | idle => exact .inl ⟨rfl, by simp [advance, h]⟩
  | run i k p =>
    right
    by_cases h1 : ∃ n, i = .process n
    · obtain ⟨n, rfl⟩ := h1
      cases p with
      | even =>
        by_cases hk : k < n
        · exact .inl ⟨n, k, rfl, hk, by simp only [advance, h, commandTurn, processTurn, if_pos hk]⟩
        · exact .inr (.inr (.inl
            ⟨n, k, rfl, hk, by simp only [advance, h, commandTurn, processTurn, if_neg hk]⟩))
      | odd v y =>
        exact .inr (.inl ⟨n, k, v, y, rfl, by simp only [advance, h, commandTurn, processTurn]⟩)
    · by_cases h2 : i = .step
      · subst h2
        cases p with
        | even => exact .inr (.inr (.inr (.inl ⟨k, rfl, by simp only [advance, h, commandTurn]⟩)))
        | odd v y =>
          exact .inr (.inr (.inr (.inr (.inl ⟨k, v, y, rfl, by simp only [advance, h, commandTurn]⟩))))
      · have h1' : ∀ n, i ≠ .process n := fun n e => h1 ⟨n, e⟩
        refine .inr (.inr (.inr (.inr (.inr ⟨i, k, p, rfl, h1', h2, ?_⟩))))
        simp only [advance, h]
        exact commandTurn_eq k p s h1' h2

theorem processEven_bodyFrame (n k : Nat) (s : State) : BodyFrame s (processEven n k s) := by
  unfold processEven
  constructor <;> simp

theorem processOdd_bodyFrame (n k : Nat) (v : Word) (s : State) :
    BodyFrame s (processOdd n k v s) := by
  unfold processOdd
  constructor <;> simp

end Sys2Proof.Machine
end

