-- ==== Sys2Proof/Laws/Step.lean ====
section
/-! SUPPORT. Once: what a step can do. -/

namespace Sys2Proof.Machine

/-- The machine just before an event is served: the event taken off the list, one latency draw taken by
an idle core, one host turn of a running command's slack used. -/
def State.taken (s : State) (rest : List HostEvent) : State :=
  if s.busy then { s with host := rest, slack := s.slack - 1 }
  else { s with host := rest, draws := s.draws + 1 }

/-- Once: what a written command word can do. -/
theorem commandWrite_cases (turns : Nat) (w : Word) (s : State) :
    (∃ why, decode w = .illegal why ∧ commandWrite turns w s = .next (s.rejected .cmdIllegal)) ∨
    (∃ i, decode w = .command i ∧ (s.host = [] ∨ turns = 0) ∧ commandWrite turns w s = exec i s) ∨
    (∃ i, decode w = .command i ∧ s.host ≠ [] ∧ turns ≠ 0 ∧
      commandWrite turns w s = .next { s.issue i with slack := turns }) := by
  unfold commandWrite
  split
  · exact .inl ⟨_, ‹_›, by rw [reject_eq_rejected]⟩
  · rename_i i h
    split
    · rename_i hc
      exact .inr (.inl ⟨i, h, by simpa using hc, rfl⟩)
    · rename_i hc
      simp only [Bool.or_eq_true, List.isEmpty_iff, beq_iff_eq, not_or] at hc
      exact .inr (.inr ⟨i, h, hc.1, hc.2, rfl⟩)

/-- Once: what a step can do. The sequencer takes a turn, or the next event is served. -/
theorem step_cases (s : State) :
    (s.host = [] ∧ step s = .next (advance s)) ∨
    (s.host ≠ [] ∧ s.busy = true ∧ s.slack = 0 ∧
      step s = .next (advance { s with slack := Config.hostTurns s.draws, draws := s.draws + 1 })) ∨
    (∃ e rest, s.host = e :: rest ∧ (s.busy = true → s.slack ≠ 0) ∧
      step s = hostTurn (Config.hostTurns s.draws) e (s.taken rest)) := by
  unfold step
  split
  · exact .inl ⟨‹_›, rfl⟩
  · rename_i e rest h
    unfold contend
    cases hb : s.busy with
    | false => exact .inr (.inr ⟨e, rest, h, nofun, by simp [State.taken, hb]⟩)
    | true =>
      cases hs : s.slack with
      | zero => exact .inr (.inl ⟨by simp [h], rfl, rfl, by simp⟩)
      | succ n => exact .inr (.inr ⟨e, rest, h, by simp, by simp [State.taken, hb, hs]⟩)

/-- A command can be written to `CMD` only at its own offset, by an idle core (R52, R59). -/
theorem busCheck_cmd {bits : Nat} {off : BitVec 14} {s : State}
    (h : busCheck .write bits off s = .reaches .cmd) : bits = 32 ∧ off = cmdOffset ∧ s.busy = false := by
  obtain ⟨hb, ho⟩ := busCheck_reaches_offset h
  refine ⟨hb, ho, ?_⟩
  cases hs : s.busy with
  | false => rfl
  | true => rcases writable_of_busy h hs with e | e <;> cases e

@[simp] theorem taken_busy (s : State) (rest : List HostEvent) : (s.taken rest).busy = s.busy :=
  busy_congr (by unfold State.taken; split <;> rfl)

/-- Once, down to the operations: what the next state of a step can be. The sequencer's turn, a read, a
refused write, a stored write, a poll, a reset, an illegal word, a command run whole, a command issued. -/
theorem next_cases {s t : State} (h : step s = .next t) :
    (∃ slack draws, t = advance { s with slack := slack, draws := draws }) ∨
    ∃ e rest, s.host = e :: rest ∧
      ((∃ bits off, e = .read bits off ∧ t = busRead bits off (s.taken rest)) ∨
       (∃ bits off w code, e = .write bits off w ∧ t = (s.taken rest).raiseError code) ∨
       (∃ w l, e = .write 32 (BitVec.ofNat 14 l.offset) w ∧ l ≠ .cmd ∧
         (s.busy = true → l = .status ∨ l = .errcause) ∧ t = (s.taken rest).writeLoc l w) ∨
       (e = .wait ∧ t = pollStatus (s.taken rest)) ∨
       (e = .reset ∧ t = (s.taken rest).resetEvent) ∨
       (∃ w, e = .write 32 cmdOffset w ∧ s.busy = false ∧
         ((∃ why, decode w = .illegal why ∧ t = (s.taken rest).rejected .cmdIllegal) ∨
          ∃ i, decode w = .command i ∧
            (t = (s.taken rest).runCommand i (bodyOf i) ∨
             ∃ slack, t = { (s.taken rest).issue i with slack := slack })))) := by
  rcases step_cases s with ⟨_, e⟩ | ⟨_, _, _, e⟩ | ⟨ev, rest, hh, _, e⟩
  · exact .inl ⟨s.slack, s.draws, by rw [e] at h; injection h with h; exact h.symm⟩
  · exact .inl ⟨_, _, by rw [e] at h; injection h with h; exact h.symm⟩
  · refine .inr ⟨ev, rest, hh, ?_⟩
    rw [e, hostTurn] at h
    rcases serve_cases ev (s.taken rest) with ⟨bits, off, he, hs⟩ | ⟨bits, off, w, he, hs⟩ | ⟨he, hs⟩ | ⟨he, hs⟩
    · rw [hs] at h; injection h with h
      exact .inl ⟨bits, off, he, h.symm⟩
    · rcases hs with ⟨code, _, hs⟩ | ⟨hc, hs⟩ | ⟨l, hl, hc, hs⟩
      · rw [hs] at h; injection h with h
        exact .inr (.inl ⟨bits, off, w, code, he, h.symm⟩)
      · obtain ⟨rfl, rfl, hb⟩ := busCheck_cmd hc
        rw [taken_busy] at hb
        rw [hs] at h
        refine .inr (.inr (.inr (.inr (.inr ⟨w, he, hb, ?_⟩))))
        simp only at h
        rcases commandWrite_cases (Config.hostTurns s.draws) w (s.taken rest) with
          ⟨why, hd, e⟩ | ⟨i, hd, _, e⟩ | ⟨i, hd, _, _, e⟩
        · rw [e] at h; injection h with h
          exact .inl ⟨why, hd, h.symm⟩
        · rw [e, exec_eq] at h; injection h with h
          exact .inr ⟨i, hd, .inl h.symm⟩
        · rw [e] at h; injection h with h
          exact .inr ⟨i, hd, .inr ⟨_, h.symm⟩⟩
      · obtain ⟨rfl, rfl⟩ := busCheck_reaches_offset hc
        rw [hs] at h; injection h with h
        exact .inr (.inr (.inl ⟨w, l, he, hl,
          fun hb => writable_of_busy hc (by rw [taken_busy]; exact hb), h.symm⟩))
    · rw [hs] at h; injection h with h
      exact .inr (.inr (.inr (.inl ⟨he, h.symm⟩)))
    · rw [hs] at h; injection h with h
      exact .inr (.inr (.inr (.inr (.inl ⟨he, h.symm⟩))))

end Sys2Proof.Machine
end

