-- ==== Sys2Proof/Tests/Slice0.lean ====
section
/-! SUPPORT. Tests of the model, each expected value from spec/95_test_vectors.md (the row is named) or
worked from the rule named; and for every obligation with hypotheses a state and operands that meet them. -/

namespace Sys2Proof.Tests

open Sys2Proof.Machine

/-! ### WellFormed and Decode -/

/-- `ARG` has 16 bits (R70): 65536 samples do not fit a word. -/
theorem test_illFormed_process : (Instr.process 65536).wellFormed = false := by decide
theorem test_wellFormed_process : (Instr.process 65535).wellFormed = true := by decide

/-- A command word laid out as the table of R70 lays it out. -/
def word (arg : BitVec 16) (rsv op : BitVec 8) : Word := arg ++ rsv ++ op

/-! R73, one word each; W5 to W8, R74. -/
theorem test_decode_nop : decode (word 0 0 0x00) = .command .nop := by decide
theorem test_decode_process : decode (word 0xFFFF 0 0x01) = .command (.process 65535) := by decide
theorem test_decode_step : decode (word 0 0 0x02) = .command .step := by decide
theorem test_decode_clearState : decode (word 0 0 0x03) = .command .clearState := by decide
theorem test_decode_cfgCommit : decode (word 0 0 0x04) = .command .cfgCommit := by decide
theorem test_decode_toFixed : decode (word 0 0 0x10) = .command .toFixed := by decide
theorem test_decode_smul : decode (word 0 0 0x11) = .command .smul := by decide
theorem test_decode_smla : decode (word 0 0 0x12) = .command .smla := by decide
theorem test_decode_asr : decode (word 0 0 0x13) = .command .asr := by decide
theorem test_decode_sat16 : decode (word 0 0 0x14) = .command .sat16 := by decide
theorem test_decode_add32 : decode (word 0 0 0x15) = .command .add32 := by decide
theorem test_decode_sub32 : decode (word 0 0 0x16) = .command .sub32 := by decide
theorem test_decode_gain : decode (word 0 0 0x17) = .command .gain := by decide
theorem test_decode_W2 : decode (word 0 0 0x0F) = .illegal .reservedOpcode := by decide
theorem test_decode_W4 : decode (word 0 0 0xFF) = .illegal .reservedOpcode := by decide
theorem test_decode_process_rsv : decode (word 1 0x80 0x01) = .illegal .reservedBits := by decide
theorem test_decode_W8 : decode (word 1 0 0x00) = .illegal .unexpectedArgument := by decide
theorem test_decodeTableWord : decodeTableWord 32 0x00110001 = some (.process 17) := by decide

/-! ### One command each -/

/-- What an outcome leaves, when it is a next state. -/
def nextOf : Host.Outcome State Fault Refusal → State
  | .next t => t
  | _ => State.reset

/-- One command on the reset state with these operands. -/
def result (i : Instr) (a b c : Word) : State :=
  nextOf (exec i { State.reset with opa := a, opb := b, opc := c })

/-- One `GAIN` with this `N3`. -/
def gainResult (a : Word) (n3 : Half) : Word :=
  (nextOf (exec .gain { State.reset with opa := a, coefs := { State.reset.coefs with n3 := n3 } })).res

/-- Set K1 of section 2. -/
def k1 : Coefs := ⟨4280, -31809, 16295, -11521, 6554, -3932, 6554, 30573⟩

/-- The reset state with K1 committed. -/
def ready : State := { State.reset with coefs := k1, cfgv := true }

/-- The same with `IBUF[0..1] = [1000, -1000]`. -/
def loaded : State := (ready.setIbuf 0 1000).setIbuf 1 (-1000)

theorem test_toFixed_V6 : (result .toFixed 0x0001FFFF 0 0).res = 0xFFFFFC00 := by decide
theorem test_smul_V15 : (result .smul 0xFFFEFFFF 1 0).res = 0xFFFFFFFE := by decide
theorem test_smul_V23 : (result .smul 0x12345678 0x0001ABCD 0).res = 0xFA033333 := by decide
theorem test_smla_V26 : let t := result .smla 0x80000000 0xFFFF0000 1
    t.res = 0x7FFFFFFF ∧ t.ovf = true ∧ t.done = true := by decide
theorem test_smla_V28 : let t := result .smla 0x80000000 0x80000000 0xFFFF8000
    t.res = 0xC0000000 ∧ t.ovf = false := by decide
theorem test_asr_V34 : (result .asr 0xFFFFFDFF 9 0).res = 0xFFFFFFFE := by decide
theorem test_asr_V41 : (result .asr 0xFFFFFF9C 0x21 0).res = 0xFFFFFFCE := by decide
theorem test_sat16_V46 : (result .sat16 0xFFFF7FFF 0 0).res = 0xFFFF8000 := by decide
theorem test_sat16_V44 : (result .sat16 0x8000 0 0).res = 0x7FFF := by decide
theorem test_add32_V53 : let t := result .add32 0x80000000 0x80000000 0
    t.res = 0 ∧ t.ovf = true := by decide
theorem test_add32_V54 : let t := result .add32 0xFFFFFFFF 1 0
    t.res = 0 ∧ t.ovf = false := by decide
theorem test_sub32_V58 : let t := result .sub32 0 0x80000000 0
    t.res = 0x80000000 ∧ t.ovf = true := by decide
theorem test_sub32_V55 : let t := result .sub32 5 7 0
    t.res = 0xFFFFFFFE ∧ t.ovf = false := by decide
theorem test_gain_V65 : gainResult 0xFFFFF400 16384 = 0xFFFFFFFF := by decide
theorem test_gain_V70 : gainResult 0x80000000 (-32768) = 0x7FFF := by decide
theorem test_nop_X16 : let t := nextOf (exec .nop { State.reset with ovf := true })
    t.ovf = true ∧ t.done = true := by decide
theorem test_clearState_X14 :
    (nextOf (exec .clearState { State.reset with cells := ⟨5, 6, 7, 8, 9, 10⟩ })).cells =
      ⟨0, 0, 0, 0, 0, 0⟩ := by decide
theorem test_cfgCommit_X7 :
    (nextOf (exec .cfgCommit { State.reset with coefs := ⟨1, -1, 1, -1, 0, 0, 0, 0⟩ })).cfgv = true := by
  decide
theorem test_cfgCommit_X6 :
    let t := nextOf (exec .cfgCommit { ready with coefs := { k1 with a1o := 32767 } })
    t.cfgv = false ∧ t.errcause = .cfgInvalid ∧ t.done = false := by decide
theorem test_step_ST6 : let t := nextOf (exec .step { ready with opa := 0xFFFF8000 })
    t.res = 0xE75EFBFC ∧ t.cells.s4 = -6808701 := by decide +kernel
theorem test_step_B10_wraps :
    let m : Word := 2147483647
    (nextOf (exec .step { ready with cells := ⟨m, m, m, m, m, m⟩ })).ovf = true := by decide +kernel
theorem test_process_S2 : let t := nextOf (exec (.process 2) loaded)
    [t.obuf 0, t.obuf 1, t.obuf 2, t.obuf 3] = [31, 192, 502, 642] ∧ t.cells.s5 = 496041 := by
  decide +kernel
theorem test_process_X12 : let t := nextOf (exec (.process 0) (ready.setObuf 0 7))
    t.obuf 0 = 7 ∧ t.done = true := by decide

/-! ### The bus and the step (section 8) -/

/-- Serving one access on a state. -/
def served (e : HostEvent) (s : State) : State :=
  match serve e s with
  | .done t => t
  | .command _ t => t

/-- A core that runs `PROCESS 1`. -/
def running : State := loaded.issue (.process 1)

theorem test_bus_Y6 :
    (served (.read 32 0x1000) (served (.write 32 0x1000 0xABCD8001) State.reset)).reads = [0xFFFF8001] := by
  decide
theorem test_bus_Y13 : let t := served (.write 16 0x040 5) State.reset
    t.errcause = .busSubword ∧ t.cells.s0 = 0 := by decide
theorem test_bus_Y18 : (served (.read 32 0xFFE) State.reset).errcause = .busSubword := by decide
theorem test_bus_Y19 : (served (.write 32 0x01C 5) running).errcause = .busBusy := by decide
theorem test_bus_Y20 :
    let t := served (.write 32 0x008 0xFFFFFFFF)
      { ready with done := true, ovf := true, errcause := .cmdNotCfg }
    t.statusWord = 0x14 := by decide
theorem test_step_runs_the_first_command :
    (nextOf (step (State.reset.withFetchWord 32 0x00000014))).done = true := by decide
theorem test_step_refuses_W7 :
    (nextOf (step (State.reset.withFetchWord 32 0x00010002))).errcause = .cmdIllegal := by decide
theorem test_step_of_running : (nextOf (step running)).obuf 0 = 31 := by decide +kernel

/-! ### Witnesses: the hypotheses of each obligation hold together somewhere -/

theorem witness_DecodeAndEncodeAgree :
    (Instr.process 0).wellFormed = true ∧ (Instr.process 65535).wellFormed = true ∧
    decode 0xFFFF0001 = .command (.process 65535) := by decide

theorem witness_DecoderAcceptsExactlyTheTable :
    ⟨"PROCESS", 0x00000001, 0x0000FFFF⟩ ∈ opcodeTable ∧
    OpcodeRow.matches ⟨"PROCESS", 0x00000001, 0x0000FFFF⟩ 0x00010001 = true := by decide

/-- An idle core with `NOP` to come, and after it a read. -/
def twoEvents : State := { State.reset with host := [.write 32 cmdOffset 0, .read 32 0x000] }

theorem witness_StepRunsTheWrittenCommand :
    twoEvents.host = .write 32 cmdOffset 0 :: [.read 32 0x000] ∧ twoEvents.busy = false ∧
    decode 0 = .command .nop := by decide

theorem witness_StepRunsTheWrittenCommand_alone :
    let s := State.reset.withFetchWord 32 0xFFFF0001
    s.host = .write 32 cmdOffset 0xFFFF0001 :: [] ∧ s.busy = false ∧
    decode 0xFFFF0001 = .command (.process 65535) := by decide

/-- One word for each of the three reasons of R74, at a boundary: `OP` 0x18, `RSV` 1, `ARG` 1 on `NOP`. -/
theorem witness_IllegalWordIsRefused : let s (w : Nat) := State.reset.withFetchWord 32 w
    ((s 0x18).host = .write 32 cmdOffset 0x18 :: [] ∧ (s 0x18).busy = false) ∧
    ((0x18 : Word).extractLsb 7 0).toNat ∉ [0, 1, 2, 3, 4, 0x10, 0x11, 0x12, 0x13, 0x14, 0x15, 0x16, 0x17] ∧
    (0x101 : Word).extractLsb 15 8 ≠ 0 ∧
    (0x10000 : Word).extractLsb 31 16 ≠ 0 ∧ (0x10000 : Word).extractLsb 7 0 ≠ 1 := by decide

/-- W7, W9, W10 and X1: a word for each check, and one that passes them all. -/
theorem witness_CommandChecksRunInOrder : let s (w : Nat) (q : State) := q.withFetchWord 32 w
    (∀ q ∈ [State.reset, ready], ∀ w ∈ [0x00010002, 0x00110001, 0x00000004],
      (s w q).host = [.write 32 cmdOffset (BitVec.ofNat 32 w)] ∧ (s w q).busy = false) ∧
    ((0x00010002 : Word).extractLsb 31 16).toNat ≠ 0 ∧
    ((0x00110001 : Word).extractLsb 7 0).toNat = 1 ∧ State.reset.cfgv = false ∧
    ready.cfgv = true ∧ ready.ibufDepth < ((0x00110001 : Word).extractLsb 31 16).toNat ∧
    ((0x00000004 : Word).extractLsb 7 0).toNat = 4 ∧ ¬(0 < State.reset.coefs.a0e.toInt) ∧
    0 < ready.coefs.a0e.toInt := by decide

theorem witness_CfgCommitValidatesTheSigns :
    (0 < k1.a0e.toInt ∧ k1.a1e.toInt < 0 ∧ 0 < k1.a0o.toInt ∧ k1.a1o.toInt < 0) ∧
    ¬(0 < State.reset.coefs.a0e.toInt) := by decide

theorem witness_StepCommandFiltersOneSample : ready.cfgv = true ∧ State.reset.cfgv = false := by decide

theorem witness_ProcessFillsTheOutputBuffer :
    State.reset.cfgv = false ∧ ¬(ready.cfgv = false) ∧ ready.ibufDepth < 17 ∧ ¬(ready.ibufDepth < 16) := by
  decide

/-- `loaded` on a core of depth 2, after `PROCESS 1`. -/
def firstHalf : State := nextOf (exec (.process 1) { loaded with ibufDepthPred := 1 })

/-- The same, the second sample moved to `IBUF[0]`. -/
def secondHalf : State := firstHalf.setIbuf 0 (-1000)

theorem witness_ProcessSplitsAtAnyPoint : let s := { loaded with ibufDepthPred := 1 }
    s.cfgv = true ∧ 1 + 1 ≤ s.ibufDepth ∧ exec (.process 1) s = .next firstHalf ∧
    secondHalf.cfgv = true ∧ secondHalf.coefs = s.coefs ∧ secondHalf.cells = firstHalf.cells ∧
    1 ≤ secondHalf.ibufDepth ∧ ∀ k, k < 1 → secondHalf.ibuf k = s.ibuf (1 + k) :=
  ⟨by decide, by decide, rfl, by decide +kernel, by decide +kernel, by decide +kernel, by decide +kernel,
    by decide +kernel⟩

theorem witness_StepIsABlockOfOneSample : ready.cfgv = true := by decide

theorem witness_FiltersDependOnTheirInputsAlone : let u := { loaded with opa := 0x10000, done := true }
    loaded.cfgv = true ∧ u.cfgv = true ∧ u.coefs = loaded.coefs ∧ u.cells = loaded.cells ∧
    2 ≤ loaded.ibufDepth ∧ 2 ≤ u.ibufDepth ∧ (∀ k, k < 2 → u.ibuf k = loaded.ibuf k) ∧
    exec (.process 2) loaded = .next (nextOf (exec (.process 2) loaded)) ∧
    exec (.process 2) u = .next (nextOf (exec (.process 2) u)) :=
  ⟨by decide, by decide, by decide, by decide, by decide, by decide, by decide, rfl, rfl⟩

theorem witness_FiltersDependOnTheirInputsAlone_step :
    let u := { loaded with opa := 0x10000, done := true }
    u.opa.setWidth 16 = loaded.opa.setWidth 16 ∧ exec .step loaded = .next (nextOf (exec .step loaded)) ∧
    exec .step u = .next (nextOf (exec .step u)) := ⟨by decide, rfl, rfl⟩

theorem witness_SequencerRefinesTheAtomicCommand :
    commandError (.process 16) ready = none ∧
    exec (.process 16) ready = .next (nextOf (exec (.process 16) ready)) := ⟨by decide, rfl⟩

theorem witness_RejectionNeedsNoTurn : commandError (.process 17) ready = some .cmdBadLen := by decide

/-- All three clauses: two shorter runs, the whole run, and a core that was busy at the start. -/
theorem witness_RunningCommandTakesItsTurns :
    running.host = [] ∧ 2 < running.seq.turnsLeft ∧ running.seq.turnsLeft = 3 ∧ running.busy = true := by
  decide

theorem witness_EffectsAppearAllAtOnce :
    running.busy = true ∧ (advance running).busy = true ∧ Loc.status.readableBusy = true := by
  decide +kernel

/-- A running core whose host reads a cell before the sequencer's turn. -/
def contended : State := { running with host := [.read 32 0x040], slack := 1 }

theorem witness_RunningCommandIsIsolatedFromTheHost :
    contended.host = .read 32 0x040 :: [] ∧ HostEvent.read 32 0x040 ≠ .reset ∧ contended.busy = true ∧
    contended.slack ≠ 0 ∧ step contended = .next (nextOf (step contended)) :=
  ⟨rfl, by decide, by decide, by decide, rfl⟩

theorem witness_AddressMapIsExact :
    (Loc.ibuf 0).mapped 1 ∧ (Loc.obuf 2047).mapped 1024 ∧ locate 1 0x1000 = some (.ibuf 0) ∧
    locate 1024 0x3FFC = some (.obuf 2047) ∧ locate 1024 0x1FFC = some (.ibuf 1023) ∧
    locate 1 0x058 = some .caps := 
  ⟨Nat.one_pos, by show 2047 < 2 * 1024; decide, by decide, by decide, by decide, by decide⟩

theorem witness_BusChecksRunInOrder :
    busCheck .read 8 0x000 State.reset = .refused .busSubword ∧
    busCheck .read 32 0x003 State.reset = .refused .busSubword ∧
    busCheck .read 32 0x05C State.reset = .refused .busUnmapped ∧
    busCheck .write 32 0x1040 State.reset = .refused .busUnmapped ∧
    busCheck .write 32 0x103C State.reset = .reaches (.ibuf 15) ∧
    busCheck .read 32 0x010 running = .refused .busBusy ∧
    busCheck .write 32 0x004 running = .refused .busBusy ∧
    busCheck .write 32 0x008 running = .reaches .status ∧
    busCheck .write 32 0x058 State.reset = .refused .busReadonly := by decide

theorem witness_BusChecksRunInOrder_refused :
    busCheck .read 32 0x3FFC State.reset = .refused .busUnmapped ∧
    busCheck .write 32 0x000 State.reset = .refused .busReadonly := by decide

theorem witness_WrittenLocationReadsBack :
    State.reset.busy = false ∧ (Loc.ibuf 15).mapped State.reset.ibufDepth ∧
    (Loc.obuf 31).mapped State.reset.ibufDepth ∧ Loc.mapped State.reset.ibufDepth (.coef .n3) ∧
    Loc.mapped State.reset.ibufDepth (.cell .s5) ∧
    Loc.ibuf 15 ∉ [Loc.id, .cmd, .status, .errcause, .res, .caps] ∧
    Loc.coef .n3 ∉ [Loc.id, .cmd, .status, .errcause, .res, .caps] ∧
    Loc.ibuf 15 ≠ .cell .s0 ∧ Loc.cell .s5 ≠ .cell .s4 ∧ Loc.coef .n3 ≠ .coef .n2 :=
  ⟨by decide, by show 15 < State.reset.ibufDepth; decide, by show 31 < 2 * State.reset.ibufDepth; decide,
    trivial, trivial, by decide, by decide, by decide, by decide, by decide⟩

theorem witness_CoefficientWriteClearsCfgv : ready.busy = false ∧ CoefName.n0 ≠ CoefName.n3 := by decide

theorem witness_CommandWhileBusyIsLost : running.busy = true := by decide

theorem witness_WindowLiesAtBase : 0 < 16384 ∧ 16383 < 16384 ∧
    ¬(Config.base ≤ Config.base + 16384 ∧ Config.base + 16384 < Config.base + 16384) :=
  ⟨by decide, by decide, by omega⟩

theorem witness_EveryStepKeepsTheStateLegal :
    running.Legal ∧ step running = .next (nextOf (step running)) := by
  refine ⟨⟨⟨by decide, ?_⟩, fun _ => by decide, ?_, fun _ => by decide⟩, rfl⟩
  · intro p hp
    have : p.1 ∈ running.mem.map Prod.fst := List.mem_map_of_mem hp
    have keys : running.mem.map Prod.fst = [0x1000, 0x1001, 0x1004, 0x1005] := by decide
    have depth : running.ibufDepth = 16 := by decide
    rw [keys] at this
    simp only [List.mem_cons, List.not_mem_nil, or_false] at this
    rw [isBufferByte, depth]
    omega
  · exact ⟨by decide, by decide, by decide⟩

/-- The reset state with one host write to come. -/
def writing (off : BitVec 14) (w : Word) (s : State) : State := { s with host := [.write 32 off w] }

theorem witness_ChangedCoefficientsAreUnvalidated : let s := writing 0x030 7 ready
    step s = .next (nextOf (step s)) ∧ (nextOf (step s)).coefs ≠ s.coefs := ⟨rfl, by decide⟩

theorem witness_CellsHaveNoOtherWriter_host : let s := writing 0x054 7 ready
    step s = .next (nextOf (step s)) ∧ (nextOf (step s)).cells ≠ s.cells := ⟨rfl, by decide⟩

theorem witness_CellsHaveNoOtherWriter_running :
    step running = .next (nextOf (step running)) ∧ (nextOf (step running)).cells ≠ running.cells :=
  ⟨rfl, by decide +kernel⟩

theorem witness_CellsHaveNoOtherWriter_command :
    let s := writing cmdOffset 0x00000003 { ready with cells := ⟨5, 6, 7, 8, 9, 10⟩ }
    step s = .next (nextOf (step s)) ∧ (nextOf (step s)).cells ≠ s.cells := ⟨rfl, by decide⟩

theorem witness_CellsHaveNoOtherWriter_reset :
    let s := { ready with cells := ⟨5, 6, 7, 8, 9, 10⟩, host := [.reset] }
    step s = .next (nextOf (step s)) ∧ (nextOf (step s)).cells ≠ s.cells := ⟨rfl, by decide⟩

theorem witness_OperandsHaveNoOtherWriter :
    let s (off : BitVec 14) := writing off 7 ready
    (∀ off ∈ [0x010, 0x014, 0x018], step (s off) = .next (nextOf (step (s off)))) ∧
    (nextOf (step (s 0x010))).opa ≠ (s 0x010).opa ∧ (nextOf (step (s 0x014))).opb ≠ (s 0x014).opb ∧
    (nextOf (step (s 0x018))).opc ≠ (s 0x018).opc :=
  ⟨fun off h => by fin_cases h <;> rfl, by decide, by decide, by decide⟩

theorem witness_ResultHasNoOtherWriter : let s := writing cmdOffset 0x00000010 { ready with opa := 1 }
    step s = .next (nextOf (step s)) ∧ (nextOf (step s)).res ≠ s.res := ⟨rfl, by decide⟩

theorem witness_ResultHasNoOtherWriter_running : let s := { ready with opa := 1 }.issue .sat16
    step s = .next (nextOf (step s)) ∧ (nextOf (step s)).res ≠ s.res := ⟨rfl, by decide⟩

theorem witness_ResultHasNoOtherWriter_reset : let s := { ready with res := 1, host := [.reset] }
    step s = .next (nextOf (step s)) ∧ (nextOf (step s)).res ≠ s.res := ⟨rfl, by decide⟩

theorem witness_OnlyCfgCommitSetsCfgv : let s := writing cmdOffset 0x00000004 { ready with cfgv := false }
    step s = .next (nextOf (step s)) ∧ s.cfgv = false ∧ (nextOf (step s)).cfgv = true :=
  ⟨rfl, by decide, by decide⟩

/-- Y22: a second error while one is recorded. -/
theorem witness_FirstErrorIsKept :
    let s := writing 0x01C 5 { ready with errcause := .busUnmapped }
    step s = .next (nextOf (step s)) ∧ s.errcause ≠ .none ∧ (nextOf (step s)).errcause = .busUnmapped :=
  ⟨rfl, by decide, by decide⟩

theorem witness_FirstErrorIsKept_cleared :
    let s := writing 0x00C 5 { ready with errcause := .busUnmapped }
    step s = .next (nextOf (step s)) ∧ s.errcause ≠ .none ∧ (nextOf (step s)).errcause = .none :=
  ⟨rfl, by decide, by decide⟩

theorem witness_OverflowFlagIsSticky :
    let s := writing cmdOffset 0 { ready with ovf := true }
    step s = .next (nextOf (step s)) ∧ s.ovf = true ∧ (nextOf (step s)).ovf = true :=
  ⟨rfl, by decide, by decide⟩

theorem witness_OverflowFlagIsSticky_cleared :
    let s := writing 0x008 8 { ready with ovf := true }
    step s = .next (nextOf (step s)) ∧ s.ovf = true ∧ (nextOf (step s)).ovf = false :=
  ⟨rfl, by decide, by decide⟩

theorem witness_IdleCoreKeepsItsState : State.reset.busy = false ∧ State.reset.host = [] := by decide

end Sys2Proof.Tests
end

section
/-! ## The address map, the bus and the fixed registers -/

namespace Sys2Proof.Machine

/-! ### The address map (R52) -/

/-- A register is found only at its own offset, and every depth has it. -/
theorem locateRegister_eq_some {off : Nat} {l : Loc} (h : locateRegister off = some l) :
    l.offset = off ∧ ∀ depth, l.mapped depth := by
  unfold locateRegister at h
  split at h <;> cases h <;> exact ⟨rfl, fun _ => trivial⟩

/-- Once: a location found at an aligned offset stands there, and the core of this depth has it. -/
theorem offset_of_locate {depth off : Nat} {l : Loc} (ha : off % 4 = 0)
    (h : locate depth off = some l) : l.offset = off ∧ l.mapped depth := by
  rcases locate_cases h with ⟨_, hr⟩ | ⟨k, rfl, hk, h1, h2, e⟩ | ⟨j, rfl, hj, h1, e⟩
  · exact ⟨(locateRegister_eq_some hr).1, (locateRegister_eq_some hr).2 depth⟩
  · exact ⟨by simp only [Loc.offset, ibufAddr]; omega, hk⟩
  · exact ⟨by simp only [Loc.offset, obufAddr]; omega, hj⟩

theorem locate_ibuf {depth k : Nat} (hd : depth ≤ 1024) (hk : k < depth) :
    locate depth (ibufAddr k) = some (.ibuf k) := by
  have index : (ibufAddr k - 0x1000) / 4 = k := by simp only [ibufAddr]; omega
  have low : ¬ibufAddr k < 0x1000 := by simp only [ibufAddr]; omega
  have high : ibufAddr k < 0x2000 := by simp only [ibufAddr]; omega
  rw [locate, if_neg low, if_pos high, index, if_pos hk]

theorem locate_obuf {depth j : Nat} (hj : j < 2 * depth) :
    locate depth (obufAddr j) = some (.obuf j) := by
  have index : (obufAddr j - 0x2000) / 4 = j := by simp only [obufAddr]; omega
  have low : ¬obufAddr j < 0x1000 := by simp only [obufAddr]; omega
  have high : ¬obufAddr j < 0x2000 := by simp only [obufAddr]; omega
  rw [locate, if_neg low, if_neg high, index, if_pos hj]

/-- Every location the core has is found at its own offset. -/
theorem locate_offset {depth : Nat} {l : Loc} (hd : depth ≤ 1024) (hl : l.mapped depth) :
    locate depth l.offset = some l := by
  cases l with
  | ibuf k => exact locate_ibuf hd hl
  | obuf j => exact locate_obuf hl
  | coef n => cases n <;> rfl
  | cell n => cases n <;> rfl
  | _ => rfl

/-- Every location the core has lies in the window, at a word boundary (R50, R54). -/
theorem offset_in_window {depth : Nat} {l : Loc} (hd : depth ≤ 1024) (hl : l.mapped depth) :
    l.offset < 0x4000 ∧ l.offset % 4 = 0 := by
  cases l with
  | ibuf k =>
    have hk : k < depth := hl
    simp only [Loc.offset, ibufAddr]
    omega
  | obuf j =>
    have hj : j < 2 * depth := hl
    simp only [Loc.offset, obufAddr]
    omega
  | coef n => cases n <;> exact ⟨by decide, by decide⟩
  | cell n => cases n <;> exact ⟨by decide, by decide⟩
  | _ => exact ⟨by decide, by decide⟩

/-- Settles O33: each half is the map's lemma for one direction. -/
theorem addressMapIsExact : Obligations.AddressMapIsExact := by
  intro depth _ hd
  refine ⟨fun l hl => ?_, fun off l _ ha h => offset_of_locate ha h⟩
  obtain ⟨hw, ha⟩ := offset_in_window hd hl
  exact ⟨hw, ha, locate_offset hd hl⟩

/-! ### Accesses at a location's own offset -/

section
variable {s : State} {l : Loc}

/-- A 32-bit access at the offset of a location the core has reaches it, if it is neither blocked by a
running command nor denied (R184). -/
theorem busCheck_offset {a : Access} (hl : l.mapped s.ibufDepth) (hb : l.blocked a s.busy = false)
    (hd : l.denied a = false) : busCheck a 32 (BitVec.ofNat 14 l.offset) s = .reaches l := by
  have hdepth := (ibufDepth_range s).2
  obtain ⟨hw, ha⟩ := offset_in_window hdepth hl
  have hoff : (BitVec.ofNat 14 l.offset).toNat = l.offset := by
    rw [BitVec.toNat_ofNat]
    omega
  simp [busCheck, wordAccess, hoff, ha, locate_offset hdepth hl, hb, hd]

theorem serve_read_offset (hl : l.mapped s.ibufDepth) (hb : l.blocked .read s.busy = false) :
    serve (.read 32 (BitVec.ofNat 14 l.offset)) s = .done (s.answer (s.readLoc l)) := by
  simp only [serve, busRead, busCheck_offset hl hb rfl]

theorem serve_write_offset (w : Word) (hl : l.mapped s.ibufDepth) (hc : l ≠ .cmd)
    (hb : l.blocked .write s.busy = false) (hd : l.denied .write = false) :
    serve (.write 32 (BitVec.ofNat 14 l.offset) w) s = .done (s.writeLoc l w) := by
  have reached := busCheck_offset hl hb hd
  rcases busWrite_cases 32 (BitVec.ofNat 14 l.offset) w s with ⟨c, h, _⟩ | ⟨h, _⟩ | ⟨l', _, h, e⟩
  · cases reached.symm.trans h
  · cases reached.symm.trans h
    exact absurd rfl hc
  · cases reached.symm.trans h
    exact e

end

/-- What may be read while a command runs may always be read (R59). -/
theorem not_blocked_of_readableBusy {l : Loc} (h : l.readableBusy = true) (busy : Bool) :
    l.blocked .read busy = false := by simp [Loc.blocked, h]

/-- What may be written while a command runs may always be written (R59). -/
theorem not_blocked_of_writableBusy {l : Loc} (h : l.writableBusy = true) (busy : Bool) :
    l.blocked .write busy = false := by simp [Loc.blocked, h]

/-! ### Coefficients -/

theorem coefs_get_set_same (c : Coefs) (n : CoefName) (h : Half) : (c.set n h).get n = h := by
  cases n <;> rfl

theorem coefs_get_set_other (c : Coefs) {n q : CoefName} (h : Half) (hq : q ≠ n) :
    (c.set n h).get q = c.get q := by
  cases n <;> cases q <;> simp [Coefs.set, Coefs.get] at hq ⊢

/-- Settles O37: the write reaches the register of an idle core, and a register's write reaches no other. -/
theorem coefficientWriteClearsCfgv : Obligations.CoefficientWriteClearsCfgv := by
  intro s n w hb
  refine ⟨?_, coefs_get_set_same _ _ _, fun q => coefs_get_set_other _ _⟩
  rw [serve_write_offset (l := .coef n) w trivial nofun (by simp [Loc.blocked, hb]) rfl, State.writeLoc,
    lowHalf_eq]

/-! ### Fixed registers, `STATUS` and `ERRCAUSE` -/

/-- Settles O38: each register is readable at any time, at its own offset. -/
theorem fixedRegistersRead : Obligations.FixedRegistersRead := by
  intro s
  exact ⟨serve_read_offset (l := .id) trivial (not_blocked_of_readableBusy rfl _),
    serve_read_offset (l := .cmd) trivial (not_blocked_of_readableBusy rfl _),
    serve_read_offset (l := .caps) trivial (not_blocked_of_readableBusy rfl _), ibufDepth_range s⟩

/-- The word of five flags at places 0 to 4, as `STATUS` has them (R33). -/
def flagWord (b0 b1 b2 b3 b4 : Bool) : Word :=
  BitVec.ofNat 32 (flagAt b0 0 + flagAt b1 1 + flagAt b2 2 + flagAt b3 3 + flagAt b4 4)

theorem statusWord_eq (s : State) : s.statusWord = flagWord s.busy s.done s.cfgv s.ovf s.err := rfl

theorem flagWord_bits : ∀ b0 b1 b2 b3 b4 : Bool, let v := flagWord b0 b1 b2 b3 b4
    v.getLsbD 0 = b0 ∧ v.getLsbD 1 = b1 ∧ v.getLsbD 2 = b2 ∧ v.getLsbD 3 = b3 ∧ v.getLsbD 4 = b4 ∧
    v.toNat < 2 ^ 5 := by decide

theorem busy_iff_not_idle {s : State} : s.busy = true ↔ s.seq ≠ .idle := by
  rw [ne_eq, ← busy_eq_false_iff, Bool.not_eq_false]

theorem err_iff {s : State} : s.err = true ↔ s.errcause ≠ .none := by simp [State.err]

/-- `STATUS` bit by bit; bits `[31:5]` read 0 (R33). -/
theorem statusWord_bits (s : State) :
    (s.statusWord.getLsbD 0 = true ↔ s.seq ≠ .idle) ∧ s.statusWord.getLsbD 1 = s.done ∧
    s.statusWord.getLsbD 2 = s.cfgv ∧ s.statusWord.getLsbD 3 = s.ovf ∧
    (s.statusWord.getLsbD 4 = true ↔ s.errcause ≠ .none) ∧
    ∀ i, 5 ≤ i → s.statusWord.getLsbD i = false := by
  rw [statusWord_eq]
  obtain ⟨h0, h1, h2, h3, h4, small⟩ := flagWord_bits s.busy s.done s.cfgv s.ovf s.err
  refine ⟨by rw [h0, busy_iff_not_idle], h1, h2, h3, by rw [h4, err_iff], fun i hi => ?_⟩
  exact Nat.testBit_lt_two_pow (small.trans_le (Nat.pow_le_pow_right (by decide) hi))

/-- A write to `STATUS` as R33 says it: bit 1 clears `DONE`, bit 3 clears `OVF`. -/
theorem writeStatus_eq (s : State) (w : Word) :
    s.writeStatus w = { s with
      done := if w.getLsbD 1 = true then false else s.done
      ovf := if w.getLsbD 3 = true then false else s.ovf } := by
  rw [State.writeStatus, bit_eq, bit_eq]
  cases w.getLsbD 1 <;> cases w.getLsbD 3 <;> simp

/-- Settles O39: `STATUS` and `ERRCAUSE` are readable and writable at any time, at their own offsets. -/
theorem statusReadsAndClears : Obligations.StatusReadsAndClears := by
  intro s w code
  have readStatus := serve_read_offset (s := s) (l := .status) trivial (not_blocked_of_readableBusy rfl _)
  have readCode := serve_read_offset (s := s) (l := .errcause) trivial (not_blocked_of_readableBusy rfl _)
  have code_eq : BitVec.ofNat 32 s.errcause.toNat = code := by
    simp only [code]
    cases s.errcause <;> rfl
  refine ⟨⟨s.statusWord, readStatus, statusWord_bits s⟩, ?_, ?_, ?_⟩
  · rw [← writeStatus_eq]
    exact serve_write_offset (l := .status) w trivial nofun (not_blocked_of_writableBusy rfl _) rfl
  · rw [← code_eq]
    exact readCode
  · exact serve_write_offset (l := .errcause) w trivial nofun (not_blocked_of_writableBusy rfl _) rfl

/-! ### Reset -/

/-- Settles O43: after a reset no byte has been written, so each is the draw of the new reset count. -/
theorem resetLeavesTheBuffersFree : Obligations.ResetLeavesTheBuffersFree :=
  fun s => ⟨s.resetEvent, rfl, rfl, rfl, fun a => by simp [State.byteAt, Memory.get?]⟩

end Sys2Proof.Machine
end

section
/-! ## What a step can change -/

namespace Sys2Proof.Machine

/-! ### What a host turn keeps -/

/-- `t` holds all that a running command owns as `s` holds it (R45, R59), and has not set `DONE`. -/
structure OwnedKept (s t : State) : Prop where
  cells : t.cells = s.cells
  coefs : t.coefs = s.coefs
  opa : t.opa = s.opa
  opb : t.opb = s.opb
  opc : t.opc = s.opc
  res : t.res = s.res
  mem : t.mem = s.mem
  epoch : t.epoch = s.epoch
  cfgv : t.cfgv = s.cfgv
  ovfPend : t.ovfPend = s.ovfPend
  seq : t.seq = s.seq
  ibufDepthPred : t.ibufDepthPred = s.ibufDepthPred
  done : s.done = false → t.done = false

/-- Moreover `OVF` is kept: what every host turn does that neither stores nor runs a command. -/
structure QuietStep (s t : State) : Prop extends OwnedKept s t where
  ovf : t.ovf = s.ovf

theorem OwnedKept.trans {s t u : State} (h : OwnedKept s t) (h' : OwnedKept t u) : OwnedKept s u where
  cells := h'.cells.trans h.cells
  coefs := h'.coefs.trans h.coefs
  opa := h'.opa.trans h.opa
  opb := h'.opb.trans h.opb
  opc := h'.opc.trans h.opc
  res := h'.res.trans h.res
  mem := h'.mem.trans h.mem
  epoch := h'.epoch.trans h.epoch
  cfgv := h'.cfgv.trans h.cfgv
  ovfPend := h'.ovfPend.trans h.ovfPend
  seq := h'.seq.trans h.seq
  ibufDepthPred := h'.ibufDepthPred.trans h.ibufDepthPred
  done hd := h'.done (h.done hd)

theorem QuietStep.trans {s t u : State} (h : QuietStep s t) (h' : QuietStep t u) : QuietStep s u :=
  ⟨h.toOwnedKept.trans h'.toOwnedKept, h'.ovf.trans h.ovf⟩

theorem OwnedKept.ibufDepth {s t : State} (h : OwnedKept s t) : t.ibufDepth = s.ibufDepth := by
  rw [State.ibufDepth, State.ibufDepth, h.ibufDepthPred]

/-- The error record and the host's own side of the state are nothing a command owns. -/
theorem quietStep_update (s : State) (host : List HostEvent) (reads : List Word) (e : ErrCode)
    (draws slack : Nat) :
    QuietStep s { s with host := host, reads := reads, errcause := e, draws := draws, slack := slack } :=
  ⟨⟨rfl, rfl, rfl, rfl, rfl, rfl, rfl, rfl, rfl, rfl, rfl, rfl, id⟩, rfl⟩

section
variable (s : State)

theorem raiseError_quiet (c : ErrCode) : QuietStep s (s.raiseError c) :=
  quietStep_update s s.host s.reads _ s.draws s.slack

theorem clearError_quiet : QuietStep s s.clearError :=
  quietStep_update s s.host s.reads .none s.draws s.slack

theorem answer_quiet (w : Word) : QuietStep s (s.answer w) :=
  quietStep_update s s.host _ s.errcause s.draws s.slack

theorem setSlack_quiet (slack : Nat) : QuietStep s { s with slack := slack } :=
  quietStep_update s s.host s.reads s.errcause s.draws slack

theorem taken_quiet (rest : List HostEvent) : QuietStep s (s.taken rest) := by
  unfold State.taken
  split <;> exact quietStep_update s rest s.reads s.errcause _ _

theorem busRead_quiet (bits : Nat) (off : BitVec 14) : QuietStep s (busRead bits off s) := by
  obtain ⟨v, e, h, _⟩ := busRead_eq bits off s
  rw [h]
  exact quietStep_update s s.host _ e s.draws s.slack

theorem pollStatus_quiet : QuietStep s (pollStatus s) := by
  unfold pollStatus
  split
  · exact quietStep_update s _ _ s.errcause s.draws s.slack
  · exact answer_quiet s _

/-- A word that is no command clears `DONE` and touches nothing a command owns (R74, R182). -/
theorem rejected_cmdIllegal_quiet : QuietStep s (s.rejected .cmdIllegal) :=
  ⟨⟨rfl, rfl, rfl, rfl, rfl, rfl, rfl, rfl, rfl, rfl, rfl, rfl, fun _ => rfl⟩, rfl⟩

theorem writeStatus_ownedKept (w : Word) : OwnedKept s (s.writeStatus w) :=
  ⟨rfl, rfl, rfl, rfl, rfl, rfl, rfl, rfl, rfl, rfl, rfl, rfl, fun h => by simp [h]⟩

/-- The two stores a busy core takes reach nothing a command owns (R59). -/
theorem writeLoc_ownedKept {l : Loc} (w : Word) (h : l = .status ∨ l = .errcause) :
    OwnedKept s (s.writeLoc l w) := by
  rcases h with rfl | rfl
  · exact writeStatus_ownedKept s w
  · exact (clearError_quiet s).toOwnedKept

end

/-- Every event but a reset, served by a busy core, keeps what the command owns and issues no other. -/
theorem serve_busy {s : State} {e : HostEvent} (hb : s.busy = true) (he : e ≠ .reset) :
    ∃ t, serve e s = .done t ∧ OwnedKept s t := by
  rcases serve_cases e s with ⟨bits, off, _, hs⟩ | ⟨bits, off, w, _, hw⟩ | ⟨_, hs⟩ | ⟨hr, _⟩
  · exact ⟨_, hs, (busRead_quiet s bits off).toOwnedKept⟩
  · rcases hw with ⟨c, _, hs⟩ | ⟨hc, _⟩ | ⟨l, _, hl, hs⟩
    · exact ⟨_, hs, (raiseError_quiet s c).toOwnedKept⟩
    · rw [(busCheck_cmd hc).2.2] at hb
      cases hb
    · exact ⟨_, hs, writeLoc_ownedKept s w (writable_of_busy hl hb)⟩
  · exact ⟨_, hs, (pollStatus_quiet s).toOwnedKept⟩
  · exact absurd hr he

/-- A host turn of a busy core, short of a reset, keeps what the command owns. -/
theorem hostTurn_busy {s t : State} {turns : Nat} {e : HostEvent} (hb : s.busy = true)
    (he : e ≠ .reset) (h : hostTurn turns e s = .next t) : OwnedKept s t := by
  obtain ⟨u, hs, kept⟩ := serve_busy hb he
  simp only [hostTurn, hs] at h
  cases h
  exact kept

/-- Settles O32: with slack left the step of a busy core is a host turn. -/
theorem runningCommandIsIsolatedFromTheHost : Obligations.RunningCommandIsIsolatedFromTheHost := by
  intro s t e rest hh he hb hslack h
  rcases step_cases s with ⟨hnil, _⟩ | ⟨_, _, h0, _⟩ | ⟨e', rest', hh', _, hstep⟩
  · rw [hnil] at hh
    cases hh
  · exact absurd h0 hslack
  · rw [hh'] at hh
    cases hh
    rw [hstep] at h
    have kept : OwnedKept s t :=
      (taken_quiet s rest).toOwnedKept.trans (hostTurn_busy (by rw [taken_busy, hb]) he h)
    exact ⟨kept.cells, kept.coefs, kept.opa, kept.opb, kept.opc, kept.res, kept.mem, kept.epoch,
      kept.cfgv, kept.ovfPend, kept.seq, kept.ibufDepthPred⟩

/-! ### What a command can change -/

/-- The commands that write `RES` (R29). -/
def writesRes : Instr → Bool
  | .nop => false
  | .process _ => false
  | .clearState => false
  | .cfgCommit => false
  | .step => true
  | .toFixed => true
  | .smul => true
  | .smla => true
  | .asr => true
  | .sat16 => true
  | .add32 => true
  | .sub32 => true
  | .gain => true

/-- What a whole command `i`, or a part of it, can do from `s` to `t`: no coefficient and no operand is
written, `OVF` is not cleared, the cells and `RES` change only by the commands that write them, and only
`CFG_COMMIT` sets `CFGV` (R21, R28, R29, R36, R37). -/
structure CommandStep (i : Instr) (s t : State) : Prop where
  coefs : t.coefs = s.coefs
  opa : t.opa = s.opa
  opb : t.opb = s.opb
  opc : t.opc = s.opc
  ovf : s.ovf = true → t.ovf = true
  cells : writesCells i = false → t.cells = s.cells
  res : writesRes i = false → t.res = s.res
  cfgv : s.cfgv = false → t.cfgv = true → i = .cfgCommit

theorem CommandStep.trans {i : Instr} {s t u : State} (h : CommandStep i s t)
    (h' : CommandStep i t u) : CommandStep i s u where
  coefs := h'.coefs.trans h.coefs
  opa := h'.opa.trans h.opa
  opb := h'.opb.trans h.opb
  opc := h'.opc.trans h.opc
  ovf ho := h'.ovf (h.ovf ho)
  cells hi := (h'.cells hi).trans (h.cells hi)
  res hi := (h'.res hi).trans (h.res hi)
  cfgv hs hu := by
    cases ht : t.cfgv with
    | false => exact h'.cfgv ht hu
    | true => exact h.cfgv hs ht

section
variable (i : Instr) (s : State)

theorem QuietStep.commandStep {s t : State} (h : QuietStep s t) : CommandStep i s t where
  coefs := h.coefs
  opa := h.opa
  opb := h.opb
  opc := h.opc
  ovf := by rw [h.ovf]; exact id
  cells _ := h.cells
  res _ := h.res
  cfgv hs ht := by
    rw [h.cfgv, hs] at ht
    cases ht

theorem accept_commandStep : CommandStep i s (s.beginCommand.accept i) :=
  ⟨rfl, rfl, rfl, rfl, id, fun _ => rfl, fun _ => rfl, fun hs ht => by simp [hs] at ht⟩

theorem complete_commandStep : CommandStep i s s.complete :=
  ⟨rfl, rfl, rfl, rfl, fun h => by simp [h], fun _ => rfl, fun _ => rfl, fun hs ht => by simp [hs] at ht⟩

/-- A rejection can clear `CFGV`, never set it (R182). -/
theorem rejected_commandStep (c : ErrCode) : CommandStep i s (s.rejected c) :=
  ⟨rfl, rfl, rfl, rfl, id, fun _ => rfl, fun _ => rfl,
    fun hs ht => by simp [State.rejected, hs] at ht⟩

/-- Only `STEP` and the primitive commands write `RES` (R29, R109). -/
theorem bodyOf_res {i : Instr} (s : State) (h : writesRes i = false) : (bodyOf i s).res = s.res := by
  cases i with
  | nop => rfl
  | process n => simp only [bodyOf]; rw [processLoop_frame]
  | clearState => rfl
  | cfgCommit => rfl
  | _ => cases h

theorem bodyOf_commandStep : CommandStep i s (bodyOf i s) where
  coefs := (bodyOf_bodyFrame i s).coefs
  opa := (bodyOf_bodyFrame i s).opa
  opb := (bodyOf_bodyFrame i s).opb
  opc := (bodyOf_bodyFrame i s).opc
  ovf := by rw [(bodyOf_bodyFrame i s).ovf]; exact id
  cells := bodyOf_cells s
  res := bodyOf_res s
  cfgv hs ht := by
    by_contra hi
    rw [bodyOf_cfgv, if_neg hi, hs] at ht
    cases ht

theorem runCommand_commandStep : CommandStep i s (s.runCommand i (bodyOf i)) := by
  rcases runCommand_cases s i (bodyOf i) with ⟨c, _, e⟩ | ⟨_, e⟩ <;> rw [e]
  · exact rejected_commandStep i s c
  · exact ((accept_commandStep i s).trans (bodyOf_commandStep i _)).trans (complete_commandStep i _)

theorem issue_commandStep : CommandStep i s (s.issue i) := by
  rcases issue_cases s i with ⟨c, _, e⟩ | ⟨_, e⟩ <;> rw [e]
  · exact rejected_commandStep i s c
  · exact accept_commandStep i s

theorem processEven_commandStep (n k : Nat) : CommandStep (.process n) s (processEven n k s) :=
  ⟨rfl, rfl, rfl, rfl, id, nofun, fun _ => rfl, fun hs ht => by simp [processEven, hs] at ht⟩

theorem processOdd_commandStep (n k : Nat) (v : Word) :
    CommandStep (.process n) s (processOdd n k v s) :=
  ⟨rfl, rfl, rfl, rfl, id, nofun, fun _ => rfl, fun hs ht => by simp [processOdd, hs] at ht⟩

theorem stepTurn_commandStep (k : Nat) (p : Phase) : CommandStep .step s (stepTurn k p s) := by
  cases p with
  | even => exact ⟨rfl, rfl, rfl, rfl, id, nofun, nofun, fun hs ht => by simp [stepTurn, hs] at ht⟩
  | odd v y =>
    exact ⟨rfl, rfl, rfl, rfl, fun h => by simp [stepTurn, h], nofun, nofun,
      fun hs ht => by simp [stepTurn, hs] at ht⟩

/-- A turn of the sequencer is a part of the running command; an idle core stays. -/
theorem advance_commandStep :
    advance s = s ∨ ∃ i k p, s.seq = .run i k p ∧ CommandStep i s (advance s) := by
  rcases advance_cases s with ⟨_, e⟩ | ⟨n, k, hq, _, e⟩ | ⟨n, k, v, y, hq, e⟩ | ⟨n, k, hq, _, e⟩ |
    ⟨k, hq, e⟩ | ⟨k, v, y, hq, e⟩ | ⟨i, k, p, hq, _, _, e⟩
  · exact .inl e
  · exact .inr ⟨_, _, _, hq, e ▸ processEven_commandStep s n k⟩
  · exact .inr ⟨_, _, _, hq, e ▸ processOdd_commandStep s n k v⟩
  · exact .inr ⟨_, _, _, hq, e ▸ complete_commandStep _ s⟩
  · exact .inr ⟨_, _, _, hq, e ▸ stepTurn_commandStep s k _⟩
  · exact .inr ⟨_, _, _, hq, e ▸ stepTurn_commandStep s k _⟩
  · exact .inr ⟨_, _, _, hq, e ▸ (bodyOf_commandStep i s).trans (complete_commandStep i _)⟩

end

/-! ### What a store can change -/

section
variable (s : State) {l : Loc} (w : Word)

theorem writeLoc_coefs (h : ∀ n, l ≠ .coef n) : (s.writeLoc l w).coefs = s.coefs := by
  cases l with
  | coef n => exact absurd rfl (h n)
  | _ => rfl

theorem writeLoc_cells (h : ∀ n, l ≠ .cell n) : (s.writeLoc l w).cells = s.cells := by
  cases l with
  | cell n => exact absurd rfl (h n)
  | _ => rfl

theorem writeLoc_opa (h : l ≠ .opa) : (s.writeLoc l w).opa = s.opa := by
  cases l with
  | opa => exact absurd rfl h
  | _ => rfl

theorem writeLoc_opb (h : l ≠ .opb) : (s.writeLoc l w).opb = s.opb := by
  cases l with
  | opb => exact absurd rfl h
  | _ => rfl

theorem writeLoc_opc (h : l ≠ .opc) : (s.writeLoc l w).opc = s.opc := by
  cases l with
  | opc => exact absurd rfl h
  | _ => rfl

theorem writeLoc_ovf (h : l ≠ .status) : (s.writeLoc l w).ovf = s.ovf := by
  cases l with
  | status => exact absurd rfl h
  | _ => rfl

/-- A store can clear `CFGV`, by a coefficient (R25), never set it. -/
theorem writeLoc_cfgv (h : s.cfgv = false) : (s.writeLoc l w).cfgv = false := by
  cases l with
  | coef n => rfl
  | _ => exact h

end

/-! ### What a step can do -/

/-- Once, by what it is to the registers: a step is quiet, or a reset, or a host store, or a part of the
command that runs or is written. -/
theorem step_effect {s t : State} (h : step s = .next t) :
    QuietStep s t ∨
    (s.nextResets ∧ ∃ u, t = State.resetEvent u) ∨
    (∃ l w u, s.nextWrites (BitVec.ofNat 14 l.offset) w ∧ QuietStep s u ∧ t = u.writeLoc l w) ∨
    ∃ i, CommandStep i s t ∧
      ((∃ k p, s.seq = .run i k p) ∨ ∃ w, s.nextWrites cmdOffset w ∧ decode w = .command i) := by
  rcases next_cases h with ⟨slack, draws, rfl⟩ | ⟨e, rest, hh, hcase⟩
  · have drawn : QuietStep s { s with slack := slack, draws := draws } :=
      quietStep_update s s.host s.reads s.errcause draws slack
    rcases advance_commandStep { s with slack := slack, draws := draws } with e | ⟨i, k, p, hq, cmd⟩
    · exact .inl (e.symm ▸ drawn)
    · exact .inr (.inr (.inr ⟨i, (drawn.commandStep i).trans cmd, .inl ⟨k, p, hq⟩⟩))
  · have taken : QuietStep s (s.taken rest) := taken_quiet s rest
    rcases hcase with ⟨bits, off, _, rfl⟩ | ⟨bits, off, w, c, _, rfl⟩ | ⟨w, l, rfl, _, _, rfl⟩ |
      ⟨_, rfl⟩ | ⟨rfl, rfl⟩ | ⟨w, rfl, _, ⟨_, _, rfl⟩ | ⟨i, hi, rfl | ⟨slack, rfl⟩⟩⟩
    · exact .inl (taken.trans (busRead_quiet _ bits off))
    · exact .inl (taken.trans (raiseError_quiet _ c))
    · exact .inr (.inr (.inl ⟨l, w, _, ⟨rest, hh⟩, taken, rfl⟩))
    · exact .inl (taken.trans (pollStatus_quiet _))
    · exact .inr (.inl ⟨⟨rest, hh⟩, _, rfl⟩)
    · exact .inl (taken.trans (rejected_cmdIllegal_quiet _))
    · have cmd := (taken.commandStep i).trans (runCommand_commandStep i _)
      exact .inr (.inr (.inr ⟨i, cmd, .inr ⟨w, ⟨rest, hh⟩, hi⟩⟩))
    · have cmd := (taken.commandStep i).trans (issue_commandStep i _)
      exact .inr (.inr (.inr ⟨i, cmd.trans ((setSlack_quiet _ slack).commandStep i),
        .inr ⟨w, ⟨rest, hh⟩, hi⟩⟩))

/-! ### The writers of each register -/

/-- Settles O48: only a host store and a reset reach the coefficients, and both clear `CFGV`. -/
theorem changedCoefficientsAreUnvalidated : Obligations.ChangedCoefficientsAreUnvalidated := by
  intro s t h hne
  rcases step_effect h with quiet | ⟨_, u, rfl⟩ | ⟨l, w, u, _, quiet, rfl⟩ | ⟨i, cmd, _⟩
  · exact absurd quiet.coefs hne
  · rfl
  · by_cases hl : ∃ n, l = .coef n
    · obtain ⟨n, rfl⟩ := hl
      rfl
    · rw [writeLoc_coefs u w (not_exists.mp hl), quiet.coefs] at hne
      exact absurd rfl hne
  · exact absurd cmd.coefs hne

theorem writesCells_iff (i : Instr) :
    writesCells i = true ↔ i = .step ∨ i = .clearState ∨ ∃ n, i = .process n := by
  cases i <;> simp [writesCells]

theorem writesRes_iff (i : Instr) :
    writesRes i = true ↔ i ∈ [.step, .toFixed, .smul, .smla, .asr, .sat16, .add32, .sub32, .gain] := by
  cases i <;> simp [writesRes]

/-- Settles O49: what else a step can do, a quiet turn, another store, another command, keeps the cells. -/
theorem cellsHaveNoOtherWriter : Obligations.CellsHaveNoOtherWriter := by
  intro s t h hne writer
  rcases step_effect h with quiet | ⟨hr, _⟩ | ⟨l, w, u, hw, quiet, rfl⟩ | ⟨i, cmd, origin⟩
  · exact absurd quiet.cells hne
  · exact .inr (.inl hr)
  · by_cases hl : ∃ n, l = .cell n
    · obtain ⟨n, rfl⟩ := hl
      exact .inr (.inr (.inl ⟨n, w, hw⟩))
    · rw [writeLoc_cells u w (not_exists.mp hl), quiet.cells] at hne
      exact absurd rfl hne
  · have hi : writer i := (writesCells_iff i).mp
      (eq_true_of_ne_false fun hf => hne (cmd.cells hf))
    rcases origin with ⟨k, p, hq⟩ | ⟨w, hw, hd⟩
    · exact .inl ⟨i, k, p, hq, hi⟩
    · exact .inr (.inr (.inr ⟨w, i, hw, hd, hi⟩))

/-- Settles O50: no turn and no command writes an operand, and a store reaches its own register alone. -/
theorem operandsHaveNoOtherWriter : Obligations.OperandsHaveNoOtherWriter := by
  intro s t h
  rcases step_effect h with quiet | ⟨hr, _⟩ | ⟨l, w, u, hw, quiet, rfl⟩ | ⟨i, cmd, _⟩
  · exact ⟨fun hne => absurd quiet.opa hne, fun hne => absurd quiet.opb hne,
      fun hne => absurd quiet.opc hne⟩
  · exact ⟨fun _ => .inl hr, fun _ => .inl hr, fun _ => .inl hr⟩
  · refine ⟨fun hne => .inr ?_, fun hne => .inr ?_, fun hne => .inr ?_⟩
    · obtain rfl : l = .opa := by_contra fun hl => hne ((writeLoc_opa u w hl).trans quiet.opa)
      exact hw
    · obtain rfl : l = .opb := by_contra fun hl => hne ((writeLoc_opb u w hl).trans quiet.opb)
      exact hw
    · obtain rfl : l = .opc := by_contra fun hl => hne ((writeLoc_opc u w hl).trans quiet.opc)
      exact hw
  · exact ⟨fun hne => absurd cmd.opa hne, fun hne => absurd cmd.opb hne,
      fun hne => absurd cmd.opc hne⟩

/-- Settles O51: no store reaches `RES`, and no command but its writers. -/
theorem resultHasNoOtherWriter : Obligations.ResultHasNoOtherWriter := by
  intro s t h hne writer
  rcases step_effect h with quiet | ⟨hr, _⟩ | ⟨l, w, u, _, quiet, rfl⟩ | ⟨i, cmd, origin⟩
  · exact absurd quiet.res hne
  · exact .inr (.inl hr)
  · exact absurd ((writeLoc_res u l w).trans quiet.res) hne
  · have hi : writer i := (writesRes_iff i).mp
      (eq_true_of_ne_false fun hf => hne (cmd.res hf))
    rcases origin with ⟨k, p, hq⟩ | ⟨w, hw, hd⟩
    · exact .inl ⟨i, k, p, hq, hi⟩
    · exact .inr (.inr ⟨w, i, hw, hd, hi⟩)

/-- A word that decodes to a command has that command's fields (R70, R73, R74). -/
theorem fields_of_decode {w : Word} {i : Instr} (h : decode w = .command i) :
    opField w = opcode i ∧ rsvField w = 0 ∧ argField w = argument i := by
  unfold decode at h
  split at h
  · rename_i hrsv
    unfold decodeOp at h
    split at h
    case h_2 op hop =>
      cases h
      exact ⟨hop, hrsv, rfl⟩
    case h_14 => cases h
    all_goals
      rename_i hop
      unfold withoutArg at h
      split at h
      · rename_i harg
        cases h
        exact ⟨hop, hrsv, harg⟩
      · cases h
  · cases h

/-- The only word a command is read from is its own (R70, R74). -/
theorem encode_of_decode {w : Word} {i : Instr} (h : decode w = .command i) : encode i = w := by
  obtain ⟨hop, hrsv, harg⟩ := fields_of_decode h
  apply BitVec.eq_of_toNat_eq
  rw [encode, BitVec.toNat_ofNat, ← hop, ← harg]
  simp only [opField, rsvField, argField] at hrsv ⊢
  have hw := w.isLt
  omega

/-- Settles O52: no store and no other command sets `CFGV`, and `CFG_COMMIT` has one word. -/
theorem onlyCfgCommitSetsCfgv : Obligations.OnlyCfgCommitSetsCfgv := by
  intro s t h hs ht
  rcases step_effect h with quiet | ⟨_, u, rfl⟩ | ⟨l, w, u, _, quiet, rfl⟩ | ⟨i, cmd, origin⟩
  · rw [quiet.cfgv, hs] at ht
    cases ht
  · cases ht
  · rw [writeLoc_cfgv u w (quiet.cfgv.trans hs)] at ht
    cases ht
  · obtain rfl : i = .cfgCommit := cmd.cfgv hs ht
    rcases origin with running | ⟨w, hw, hd⟩
    · exact .inl running
    · obtain rfl := encode_of_decode hd
      exact .inr hw

/-- Settles O54: of a quiet turn, a store and a command, only the store to `STATUS` can clear `OVF`. -/
theorem overflowFlagIsSticky : Obligations.OverflowFlagIsSticky := by
  intro s t h hs
  rcases step_effect h with quiet | ⟨hr, _⟩ | ⟨l, w, u, hw, quiet, rfl⟩ | ⟨i, cmd, _⟩
  · exact .inl (quiet.ovf.trans hs)
  · exact .inr (.inl hr)
  · have hu : u.ovf = true := quiet.ovf.trans hs
    by_cases hl : l = .status
    · subst hl
      cases hbit : w.getLsbD 3 with
      | false =>
        refine .inl ?_
        rw [State.writeLoc, writeStatus_ovf, bit_eq, hu, hbit]
        rfl
      | true => exact .inr (.inr ⟨w, hw, hbit⟩)
    · exact .inl ((writeLoc_ovf u w hl).trans hu)
  · exact .inl (cmd.ovf hs)

end Sys2Proof.Machine
end

section
/-! ## Legal states -/

namespace Sys2Proof.Machine

/-! ### Positions -/

section
variable {s : State} {n k : Nat} {v : Word} {y : Half}

theorem positionLegal_idle (h : s.seq = .idle) : s.positionLegal := by
  simp [State.positionLegal, h]

theorem positionLegal_process_even (h : s.seq = .run (.process n) k .even) :
    s.positionLegal ↔ s.cfgv = true ∧ k ≤ n ∧ n ≤ s.ibufDepth := by
  simp [State.positionLegal, h]

theorem positionLegal_process_odd (h : s.seq = .run (.process n) k (.odd v y)) :
    s.positionLegal ↔ s.cfgv = true ∧ k < n ∧ n ≤ s.ibufDepth ∧ v = toFixed (s.ibuf k) := by
  simp [State.positionLegal, h]

theorem positionLegal_step_even (h : s.seq = .run .step k .even) :
    s.positionLegal ↔ s.cfgv = true ∧ k = 0 := by
  simp [State.positionLegal, h]

theorem positionLegal_step_odd (h : s.seq = .run .step k (.odd v y)) :
    s.positionLegal ↔ s.cfgv = true ∧ k = 0 ∧ v = toFixed s.sampleOperand := by
  simp [State.positionLegal, h]

theorem positionLegal_cfgCommit {p : Phase} (h : s.seq = .run .cfgCommit k p) :
    s.positionLegal ↔ s.coefs.ok = true ∧ k = 0 ∧ p = .even := by
  simp [State.positionLegal, h]

end

/-- The first position of a command whose checks passed is legal (R43, R181). -/
theorem positionLegal_accept {i : Instr} {s : State} (h : commandError i s = none) :
    (s.beginCommand.accept i).positionLegal := by
  obtain ⟨hprocess, hstep, hcommit⟩ := commandError_eq_none h
  cases i with
  | process n =>
    obtain ⟨hcfgv, hn⟩ := hprocess n rfl
    exact (positionLegal_process_even rfl).mpr ⟨hcfgv, Nat.zero_le n, hn⟩
  | step => exact (positionLegal_step_even rfl).mpr ⟨hstep rfl, rfl⟩
  | cfgCommit => exact (positionLegal_cfgCommit rfl).mpr ⟨hcommit rfl, rfl, rfl⟩
  | _ => exact ⟨rfl, rfl⟩

/-- What a legal position reads, a host turn keeps. -/
theorem OwnedKept.positionLegal_eq {s t : State} (h : OwnedKept s t) :
    t.positionLegal = s.positionLegal := by
  have hibuf : ∀ k, t.ibuf k = s.ibuf k := ibuf_congr h.mem h.epoch
  have hsample : t.sampleOperand = s.sampleOperand := by
    rw [State.sampleOperand, State.sampleOperand, h.opa]
  simp only [State.positionLegal, h.seq, h.cfgv, h.coefs, h.ibufDepth, hibuf, hsample]

/-! ### Ways to be legal -/

theorem configLegal_congr {s t : State} (hv : t.cfgv = s.cfgv) (hc : t.coefs = s.coefs)
    (hs : s.configLegal) : t.configLegal := by
  simpa only [State.configLegal, hv, hc] using hs

theorem OwnedKept.legal {s t : State} (h : OwnedKept s t) (hs : s.Legal) : t.Legal where
  memory := memoryLegal_congr h.mem h.ibufDepthPred hs.memory
  config := configLegal_congr h.cfgv h.coefs hs.config
  position := h.positionLegal_eq ▸ hs.position
  done hb := h.done (hs.done ((busy_congr h.seq).symm.trans hb))

/-- An idle core has no position to be wrong about. -/
theorem legal_of_idle {s : State} (hm : s.memoryLegal) (hc : s.configLegal) (hq : s.seq = .idle) :
    s.Legal where
  memory := hm
  config := hc
  position := positionLegal_idle hq
  done hb := by
    rw [busy_idle hq] at hb
    cases hb

theorem complete_legal {s : State} (hm : s.memoryLegal) (hc : s.configLegal) : s.complete.Legal :=
  legal_of_idle hm hc rfl

theorem memoryLegal_of_empty {s : State} (h : s.mem = []) : s.memoryLegal := by
  simp [State.memoryLegal, Memory.wf, h]

/-- Settles O46: nothing is written, `CFGV = 0` and the core is idle. -/
theorem resetStateIsLegal : Obligations.ResetStateIsLegal :=
  fun _ => legal_of_idle (memoryLegal_of_empty rfl) nofun rfl

theorem resetEvent_legal (s : State) : s.resetEvent.Legal :=
  legal_of_idle (memoryLegal_of_empty rfl) nofun rfl

/-! ### Host accesses -/

theorem writeLoc_memoryLegal {s : State} {l : Loc} (w : Word) (hs : s.memoryLegal)
    (hl : l.mapped s.ibufDepth) : (s.writeLoc l w).memoryLegal := by
  cases l with
  | ibuf k => exact setIbuf_memoryLegal _ hs hl
  | obuf j => exact setObuf_memoryLegal _ hs hl
  | _ => exact memoryLegal_congr rfl rfl hs

theorem writeLoc_configLegal {s : State} {l : Loc} (w : Word) (hs : s.configLegal) :
    (s.writeLoc l w).configLegal := by
  cases l with
  | coef n => exact nofun
  | _ => exact configLegal_congr rfl rfl hs

/-- A store at a location the core has keeps a state legal: while a command runs it reaches nothing the
command owns, and an idle core keeps its memory and configuration legal. -/
theorem writeLoc_legal {s : State} {l : Loc} (w : Word) (hs : s.Legal) (hl : l.mapped s.ibufDepth)
    (hb : s.busy = true → l = .status ∨ l = .errcause) : (s.writeLoc l w).Legal := by
  cases hbusy : s.busy with
  | true => exact (writeLoc_ownedKept s w (hb hbusy)).legal hs
  | false =>
    exact legal_of_idle (writeLoc_memoryLegal w hs.memory hl) (writeLoc_configLegal w hs.config)
      ((writeLoc_seq s l w).trans (busy_eq_false_iff.mp hbusy))

theorem serve_legal {s t : State} {e : HostEvent} (hs : s.Legal) (h : serve e s = .done t) :
    t.Legal := by
  rcases serve_cases e s with ⟨bits, off, _, hserve⟩ | ⟨bits, off, w, _, hw⟩ | ⟨_, hserve⟩ | ⟨_, hserve⟩
  · cases hserve.symm.trans h
    exact (busRead_quiet s bits off).legal hs
  · rcases hw with ⟨c, _, hserve⟩ | ⟨_, hserve⟩ | ⟨l, _, hl, hserve⟩
    · cases hserve.symm.trans h
      exact (raiseError_quiet s c).legal hs
    · cases hserve.symm.trans h
    · cases hserve.symm.trans h
      obtain ⟨_, ha, hloc, _, _⟩ := busCheck_reaches hl
      exact writeLoc_legal w hs (offset_of_locate ha hloc).2 (writable_of_busy hl)
  · cases hserve.symm.trans h
    exact (pollStatus_quiet s).legal hs
  · cases hserve.symm.trans h
    exact resetEvent_legal s

/-- A word is left to be run only by an idle core, whose state the access has not changed (R59, R71). -/
theorem serve_command {s t : State} {e : HostEvent} {w : Word} (h : serve e s = .command w t) :
    t = s ∧ s.busy = false := by
  rcases serve_cases e s with ⟨_, _, _, hs⟩ | ⟨_, _, _, _, ⟨_, _, hs⟩ | ⟨hc, hs⟩ | ⟨_, _, _, hs⟩⟩ |
    ⟨_, hs⟩ | ⟨_, hs⟩ <;> cases hs.symm.trans h
  exact ⟨rfl, (busCheck_cmd hc).2.2⟩

/-! ### Commands -/

/-- Where `CFGV` is cleared no command runs, so a rejection leaves an idle core idle. -/
theorem rejected_legal {s : State} (c : ErrCode) (hs : s.Legal) (hb : s.busy = false) :
    (s.rejected c).Legal := by
  refine legal_of_idle (memoryLegal_congr rfl rfl hs.memory) (fun hv => ?_) (busy_eq_false_iff.mp hb)
  by_cases hc : c = .cfgInvalid
  · simp [State.rejected, hc] at hv
  · exact hs.config (by simpa [State.rejected, hc] using hv)

theorem accept_legal {s : State} {i : Instr} (hs : s.Legal) (h : commandError i s = none) :
    (s.beginCommand.accept i).Legal where
  memory := memoryLegal_congr rfl rfl hs.memory
  config := configLegal_congr rfl rfl hs.config
  position := positionLegal_accept h
  done _ := rfl

theorem issue_legal {s : State} (i : Instr) (hs : s.Legal) (hb : s.busy = false) :
    (s.issue i).Legal := by
  rcases issue_cases s i with ⟨c, _, e⟩ | ⟨h, e⟩ <;> rw [e]
  · exact rejected_legal c hs hb
  · exact accept_legal hs h

theorem processSample_memoryLegal {s : State} {k : Nat} (hs : s.memoryLegal) (hk : k < s.ibufDepth) :
    (processSample k s).memoryLegal := by
  refine memoryLegal_congr (processSample_mem s k) rfl ?_
  refine setObuf_memoryLegal _ (setObuf_memoryLegal _ hs (by omega)) ?_
  change 2 * k + 1 < 2 * s.ibufDepth
  omega

theorem processLoop_memoryLegal {left k : Nat} {s : State} (hs : s.memoryLegal)
    (hk : k + left ≤ s.ibufDepth) : (processLoop left k s).memoryLegal := by
  induction left generalizing k s with
  | zero => exact hs
  | succ left ih =>
    refine ih (processSample_memoryLegal hs (by omega)) ?_
    change k + 1 + left ≤ s.ibufDepth
    omega

/-- The body of a command stores within the buffers, if its samples are (R181). -/
theorem bodyOf_memoryLegal {i : Instr} {s : State} (hs : s.memoryLegal)
    (hn : ∀ n, i = .process n → n ≤ s.ibufDepth) : (bodyOf i s).memoryLegal := by
  by_cases hi : ∃ n, i = .process n
  · obtain ⟨n, rfl⟩ := hi
    exact processLoop_memoryLegal hs (by simpa using hn n rfl)
  · exact memoryLegal_congr (bodyOf_mem s (not_exists.mp hi)) (bodyOf_bodyFrame i s).ibufDepthPred hs

/-- The body of `CFG_COMMIT` sets `CFGV`, over signs its check found valid (R172); no other body reaches it. -/
theorem bodyOf_configLegal {i : Instr} {s : State} (hs : s.configLegal)
    (hok : i = .cfgCommit → s.coefs.ok = true) : (bodyOf i s).configLegal := by
  intro hv
  rw [(bodyOf_bodyFrame i s).coefs]
  by_cases hi : i = .cfgCommit
  · exact hok hi
  · rw [bodyOf_cfgv, if_neg hi] at hv
    exact hs hv

theorem runCommand_legal {s : State} (i : Instr) (hs : s.Legal) (hb : s.busy = false) :
    (s.runCommand i (bodyOf i)).Legal := by
  rcases runCommand_cases s i (bodyOf i) with ⟨c, _, e⟩ | ⟨h, e⟩ <;> rw [e]
  · exact rejected_legal c hs hb
  · obtain ⟨hprocess, _, hcommit⟩ := commandError_eq_none h
    have accepted := accept_legal hs h
    exact complete_legal (bodyOf_memoryLegal accepted.memory fun n hi => (hprocess n hi).2)
      (bodyOf_configLegal accepted.config hcommit)

theorem commandWrite_legal {s t : State} {turns : Nat} {w : Word} (hs : s.Legal) (hb : s.busy = false)
    (h : commandWrite turns w s = .next t) : t.Legal := by
  rcases commandWrite_cases turns w s with ⟨_, _, e⟩ | ⟨i, _, _, e⟩ | ⟨i, _, _, _, e⟩
  · cases e.symm.trans h
    exact rejected_legal _ hs hb
  · rw [exec_eq] at e
    cases e.symm.trans h
    exact runCommand_legal i hs hb
  · cases e.symm.trans h
    exact (setSlack_quiet _ turns).legal (issue_legal i hs hb)

theorem hostTurn_legal {s t : State} {turns : Nat} {e : HostEvent} (hs : s.Legal)
    (h : hostTurn turns e s = .next t) : t.Legal := by
  unfold hostTurn at h
  split at h
  · rename_i u hserve
    cases h
    exact serve_legal hs hserve
  · rename_i w u hserve
    obtain ⟨rfl, hb⟩ := serve_command hserve
    exact commandWrite_legal hs hb h

/-! ### Turns of the sequencer -/

/-- An even phase stores `OBUF[2k]` and hands on the `v` of `IBUF[k]`, which it leaves as it was (R60, R154). -/
theorem processEven_legal {s : State} {n k : Nat} (hs : s.Legal)
    (hq : s.seq = .run (.process n) k .even) (hk : k < n) : (processEven n k s).Legal := by
  obtain ⟨hv, _, hn⟩ := (positionLegal_process_even hq).mp hs.position
  have hdepth := (ibufDepth_range s).2
  refine ⟨?_, configLegal_congr rfl rfl hs.config,
    (positionLegal_process_odd rfl).mpr ⟨hv, hk, hn, congrArg toFixed ?_⟩, fun _ => hs.done (busy_run hq)⟩
  · exact memoryLegal_congr rfl rfl (setObuf_memoryLegal (s := s) (j := 2 * k) _ hs.memory (by omega))
  · exact (ibuf_setObuf s (by omega) (2 * k) _).symm

/-- An odd phase stores `OBUF[2k+1]` and moves to the next sample (R154). -/
theorem processOdd_legal {s : State} {n k : Nat} {v : Word} {y : Half} (hs : s.Legal)
    (hq : s.seq = .run (.process n) k (.odd v y)) : (processOdd n k v s).Legal := by
  obtain ⟨hv, hk, hn, _⟩ := (positionLegal_process_odd hq).mp hs.position
  refine ⟨?_, configLegal_congr rfl rfl hs.config,
    (positionLegal_process_even rfl).mpr ⟨hv, hk, hn⟩, fun _ => hs.done (busy_run hq)⟩
  exact memoryLegal_congr rfl rfl (setObuf_memoryLegal (s := s) (j := 2 * k + 1) _ hs.memory (by omega))

theorem stepTurn_even_legal {s : State} {k : Nat} (hs : s.Legal) (hq : s.seq = .run .step k .even) :
    (stepTurn k .even s).Legal := by
  obtain ⟨hv, hk⟩ := (positionLegal_step_even hq).mp hs.position
  exact ⟨memoryLegal_congr rfl rfl hs.memory, configLegal_congr rfl rfl hs.config,
    (positionLegal_step_odd rfl).mpr ⟨hv, hk, rfl⟩, fun _ => hs.done (busy_run hq)⟩

theorem stepTurn_odd_legal {s : State} {k : Nat} {v : Word} {y : Half} (hs : s.Legal) :
    (stepTurn k (.odd v y) s).Legal :=
  complete_legal (memoryLegal_congr rfl rfl hs.memory) (configLegal_congr rfl rfl hs.config)

theorem advance_legal {s : State} (hs : s.Legal) : (advance s).Legal := by
  rcases advance_cases s with ⟨_, e⟩ | ⟨n, k, hq, hk, e⟩ | ⟨n, k, v, y, hq, e⟩ | ⟨n, k, _, _, e⟩ |
    ⟨k, hq, e⟩ | ⟨k, v, y, _, e⟩ | ⟨i, k, p, hq, hprocess, _, e⟩ <;> rw [e]
  · exact hs
  · exact processEven_legal hs hq hk
  · exact processOdd_legal hs hq
  · exact complete_legal hs.memory hs.config
  · exact stepTurn_even_legal hs hq
  · exact stepTurn_odd_legal hs
  · refine complete_legal (bodyOf_memoryLegal hs.memory fun n hi => absurd hi (hprocess n))
      (bodyOf_configLegal hs.config fun hi => ?_)
    subst hi
    exact ((positionLegal_cfgCommit hq).mp hs.position).1

/-- Settles O47: the sequencer's turn keeps a state legal, and so does every host turn. -/
theorem everyStepKeepsTheStateLegal : Obligations.EveryStepKeepsTheStateLegal := by
  intro s t hs h
  rcases step_cases s with ⟨_, e⟩ | ⟨_, _, _, e⟩ | ⟨ev, rest, _, _, e⟩
  · cases e.symm.trans h
    exact advance_legal hs
  · cases e.symm.trans h
    have drawn := quietStep_update s s.host s.reads s.errcause (s.draws + 1) (Config.hostTurns s.draws)
    exact advance_legal (drawn.legal hs)
  · exact hostTurn_legal ((taken_quiet s rest).legal hs) (e.symm.trans h)

end Sys2Proof.Machine
end

section
/-! ## The sequencer's turns -/

namespace Sys2Proof.Machine

/-! ### The sequencer and the atomic meaning (R43, R61, R154) -/

theorem advance_process_even {s : State} {n k : Nat} (h : s.seq = .run (.process n) k .even)
    (hk : k < n) : advance s = processEven n k s := by
  simp only [advance, h, commandTurn, processTurn, if_pos hk]

theorem advance_process_odd {s : State} {n k : Nat} {v : Word} {y : Half}
    (h : s.seq = .run (.process n) k (.odd v y)) : advance s = processOdd n k v s := by
  simp only [advance, h, commandTurn, processTurn]

theorem advance_process_end {s : State} {n k : Nat} (h : s.seq = .run (.process n) k .even)
    (hk : ¬k < n) : advance s = s.complete := by
  simp only [advance, h, commandTurn, processTurn, if_neg hk]

theorem advance_step {s : State} {k : Nat} {p : Phase} (h : s.seq = .run .step k p) :
    advance s = stepTurn k p s := by
  simp only [advance, h, commandTurn]

/-- The state with the sequencer at another position. -/
def State.atPosition (q : Seq) (s : State) : State := { s with seq := q }

/-- The two phases of a sample are the sample of the loop of R152: the odd phase runs on the cells the even
phase left, with the `v` it handed on. -/
theorem processOdd_processEven (n k : Nat) (s : State) :
    processOdd n k (toFixed (s.ibuf k)) (processEven n k s) =
      (processSample k s).atPosition (.run (.process n) (k + 1) .even) := by
  simp [processOdd, processEven, processSample, sampleStep, State.atPosition, State.markWrapped,
    State.setObuf, State.setHalf, Bool.or_assoc]

/-- The loop does not read the position. -/
theorem processLoop_atPosition (left k : Nat) (q : Seq) (s : State) :
    processLoop left k (s.atPosition q) = (processLoop left k s).atPosition q := by
  induction left generalizing k s with
  | zero => rfl
  | succ left ih => exact ih (k + 1) (processSample k s)

/-- From the start of sample `k` of `PROCESS N`, two turns for each sample left and one at `k = N` are the
rest of the loop and the completion. -/
theorem advanceTimes_process {left n k : Nat} {s : State} (hq : s.seq = .run (.process n) k .even)
    (hn : k + left = n) : advanceTimes (2 * left + 1) s = (processLoop left k s).complete := by
  induction left generalizing k s with
  | zero => exact advance_process_end hq (by omega)
  | succ left ih =>
    have sample : advance (advance s) =
        (processSample k s).atPosition (.run (.process n) (k + 1) .even) := by
      rw [advance_process_even hq (by omega), advance_process_odd rfl, processOdd_processEven]
    calc advanceTimes (2 * (left + 1) + 1) s
        = advanceTimes (2 * left + 1) (advance (advance s)) := rfl
      _ = (processLoop left (k + 1)
            ((processSample k s).atPosition (.run (.process n) (k + 1) .even))).complete := by
          rw [sample]; exact ih rfl (by omega)
      _ = (processLoop (left + 1) k s).complete := by rw [processLoop_atPosition]; rfl

/-- The two turns of `STEP` are its sample step and the completion (R153). -/
theorem advanceTimes_step {k : Nat} {s : State} (hq : s.seq = .run .step k .even) :
    advanceTimes 2 s = (stepBody s).complete := by
  rw [advanceTimes, advanceTimes, advanceTimes, advance_step hq, stepTurn, advance_step rfl]
  simp [stepTurn, stepBody, sampleStep, State.writeRes, State.markWrapped, State.complete, Bool.or_assoc]

/-- A command at its first position, run for the turns that position has left, has run its body and
completed. -/
theorem advanceTimes_first {i : Instr} {s : State} (hq : s.seq = .run i 0 .even) :
    advanceTimes s.seq.turnsLeft s = (bodyOf i s).complete := by
  rw [hq]
  cases i with
  | process n => exact advanceTimes_process hq (Nat.zero_add n)
  | step => exact advanceTimes_step hq
  | _ => simp only [Seq.turnsLeft, advanceTimes, advance, hq, commandTurn, bodyOf]

/-- Settles O27: issued, the command is at its first position, from where its turns are its meaning. -/
theorem sequencerRefinesTheAtomicCommand : Obligations.SequencerRefinesTheAtomicCommand := by
  intro i s t hpass h
  rcases issue_cases s i with ⟨c, hc, _⟩ | ⟨_, issued⟩
  · cases hpass.symm.trans hc
  · rw [issued]
    refine ⟨rfl, ?_⟩
    rw [exec_eq, runCommand_accepted _ hpass] at h
    cases h
    exact advanceTimes_first rfl

/-! ### How many turns are left -/

theorem turnsLeft_pos_iff {q : Seq} : 0 < q.turnsLeft ↔ q ≠ .idle := by
  fun_cases Seq.turnsLeft q <;> simp

/-- A turn of a running command uses one of the turns left. -/
theorem advance_turnsLeft (s : State) : (advance s).seq.turnsLeft = s.seq.turnsLeft - 1 := by
  rcases advance_cases s with ⟨hq, e⟩ | ⟨n, k, hq, hk, e⟩ | ⟨n, k, v, y, hq, e⟩ | ⟨n, k, hq, hk, e⟩ |
    ⟨k, hq, e⟩ | ⟨k, v, y, hq, e⟩ | ⟨i, k, p, hq, hprocess, hstep, e⟩ <;> rw [e, hq]
  · rfl
  · simp only [processEven, Seq.turnsLeft]
    omega
  · simp only [processOdd, Seq.turnsLeft]
    omega
  · simp only [complete_seq, Seq.turnsLeft]
    omega
  · rfl
  · rfl
  · cases i with
    | process n => exact absurd rfl (hprocess n)
    | step => exact absurd rfl hstep
    | _ => rfl

/-- A turn that ends a command ends it with `DONE = 1` (R35, R71). -/
theorem advance_done {s : State} (hb : s.busy = true) (h : (advance s).busy = false) :
    (advance s).done = true := by
  rcases advance_cases s with ⟨hq, _⟩ | ⟨n, k, _, _, e⟩ | ⟨n, k, v, y, _, e⟩ | ⟨n, k, _, _, e⟩ |
    ⟨k, _, e⟩ | ⟨k, v, y, _, e⟩ | ⟨i, k, p, _, _, _, e⟩
  · rw [busy_idle hq] at hb
    cases hb
  · rw [e] at h
    cases h
  · rw [e] at h
    cases h
  · rw [e, complete_done]
  · rw [e] at h
    cases h
  · rw [e]
    rfl
  · rw [e, complete_done]

theorem advance_host (s : State) : (advance s).host = s.host := by
  rcases advance_cases s with ⟨_, e⟩ | ⟨n, k, _, _, e⟩ | ⟨n, k, v, y, _, e⟩ | ⟨n, k, _, _, e⟩ |
    ⟨k, _, e⟩ | ⟨k, v, y, _, e⟩ | ⟨i, k, p, _, _, _, e⟩ <;> rw [e]
  · exact (processEven_bodyFrame n k s).host
  · exact (processOdd_bodyFrame n k v s).host
  · rfl
  · rfl
  · rfl
  · exact (bodyOf_bodyFrame i s).host

theorem step_without_event {s : State} (h : s.host = []) : step s = .next (advance s) := by
  simp only [step, h]

/-- With no host event waiting, the steps of the machine are the turns of the sequencer. -/
theorem run_eq_advanceTimes {s : State} (k : Nat) (h : s.host = []) :
    Host.Core.run Sys2Proof.core k s = .next (advanceTimes k s) := by
  induction k generalizing s with
  | zero => rfl
  | succ k ih =>
    have turn : Sys2Proof.core.step s = .next (advance s) := step_without_event h
    simp only [Host.Core.run, turn]
    exact ih ((advance_host s).trans h)

theorem advanceTimes_turnsLeft (k : Nat) (s : State) :
    (advanceTimes k s).seq.turnsLeft = s.seq.turnsLeft - k := by
  induction k generalizing s with
  | zero => rfl
  | succ k ih =>
    rw [advanceTimes, ih, advance_turnsLeft]
    omega

theorem advanceTimes_host (k : Nat) (s : State) : (advanceTimes k s).host = s.host := by
  induction k generalizing s with
  | zero => rfl
  | succ k ih => rw [advanceTimes, ih, advance_host]

theorem busy_iff_turnsLeft {s : State} : s.busy = true ↔ 0 < s.seq.turnsLeft := by
  rw [turnsLeft_pos_iff, busy_iff_not_idle]

/-- Turns that take a running core to idle leave `DONE = 1`. -/
theorem advanceTimes_done {k : Nat} {s : State} (hk : k = s.seq.turnsLeft) (hb : s.busy = true) :
    (advanceTimes k s).done = true := by
  induction k generalizing s with
  | zero => exact absurd (busy_iff_turnsLeft.mp hb) (by omega)
  | succ k ih =>
    have left : k = (advance s).seq.turnsLeft := by
      rw [advance_turnsLeft]
      omega
    rw [advanceTimes]
    cases hnext : (advance s).busy with
    | true => exact ih left hnext
    | false =>
      obtain rfl : k = 0 := by
        rw [left, busy_eq_false_iff.mp hnext]
        rfl
      exact advance_done hb hnext

/-- Settles O29: the turns left fall by one at every step, and are 0 exactly when the core is idle. -/
theorem runningCommandTakesItsTurns : Obligations.RunningCommandTakesItsTurns := by
  intro s h
  refine ⟨fun k hk => ⟨_, run_eq_advanceTimes k h, ?_⟩, _, run_eq_advanceTimes _ h, ?_,
    (advanceTimes_host _ s).trans h, advanceTimes_done rfl⟩
  · rw [busy_iff_turnsLeft, advanceTimes_turnsLeft]
    omega
  · rw [← Bool.not_eq_true, busy_iff_turnsLeft, advanceTimes_turnsLeft]
    omega

end Sys2Proof.Machine
end

section
/-! ## What a host access reads, stores and is refused -/

namespace Sys2Proof.Machine

/-! ### The window on the platform bus (R50) -/

theorem windowOffset_inside {off : Nat} (h : off < 16384) :
    windowOffset (Config.base + off) = some (BitVec.ofNat 14 off) := by
  have inside : Config.base ≤ Config.base + off ∧ Config.base + off < Config.base + 16384 := by omega
  rw [windowOffset, if_pos inside, Nat.add_sub_cancel_left]

theorem windowOffset_outside {addr : Nat} (h : ¬(Config.base ≤ addr ∧ addr < Config.base + 16384)) :
    windowOffset addr = none := if_neg h

/-- Settles O41: reads and writes go through the window's offset, which exists inside the window alone. -/
theorem windowLiesAtBase : Obligations.WindowLiesAtBase := by
  refine ⟨Nat.mul_mod_right 16384 _, fun off h => ?_, fun addr h => ?_⟩
  · simp only [memRead, memWrite, windowOffset_inside h]
    exact ⟨rfl, fun _ => rfl⟩
  · simp only [memRead, memWrite, windowOffset_outside h]
    exact ⟨rfl, fun _ => rfl⟩

/-! ### The bus checks (R184) -/

theorem wordAccess_iff {bits : Nat} {off : BitVec 14} :
    wordAccess bits off = true ↔ bits = 32 ∧ off.toNat % 4 = 0 := by simp [wordAccess]

/-- R59's list of the locations readable while a command runs. -/
theorem readableBusy_iff (l : Loc) :
    l.readableBusy = true ↔ l ∈ [Loc.id, .cmd, .status, .errcause, .caps] := by
  cases l <;> simp [Loc.readableBusy]

/-- R59's list of the locations writable while a command runs. -/
theorem writableBusy_iff (l : Loc) : l.writableBusy = true ↔ l ∈ [Loc.status, .errcause] := by
  simp [Loc.writableBusy]

theorem readOnly_iff (l : Loc) : l.readOnly = true ↔ l ∈ [Loc.id, .res, .caps] := by
  simp [Loc.readOnly, or_assoc]

theorem blocked_iff (l : Loc) (a : Access) (busy : Bool) :
    l.blocked a busy = true ↔ busy = true ∧
      (a = .read ∧ l ∉ [Loc.id, .cmd, .status, .errcause, .caps] ∨
       a = .write ∧ l ∉ [Loc.status, .errcause]) := by
  rw [← readableBusy_iff, ← writableBusy_iff]
  cases a <;> simp [Loc.blocked]

theorem denied_iff (l : Loc) (a : Access) :
    l.denied a = true ↔ a = .write ∧ l ∈ [Loc.id, .res, .caps] := by
  rw [← readOnly_iff]
  cases a <;> simp [Loc.denied]

/-- The checks read nothing of the state but whether a command runs and the depth. -/
theorem busCheck_congr {s t : State} (hq : t.seq = s.seq) (hd : t.ibufDepthPred = s.ibufDepthPred)
    (a : Access) (bits : Nat) (off : BitVec 14) : busCheck a bits off t = busCheck a bits off s := by
  have depth : t.ibufDepth = s.ibufDepth := by rw [State.ibufDepth, State.ibufDepth, hd]
  rw [busCheck, busCheck, depth, busy_congr hq]

/-- A running command blocks a write to `CMD` (R59). -/
theorem busCheck_cmd_busy {s : State} (hb : s.busy = true) :
    busCheck .write 32 cmdOffset s = .refused .busBusy := by
  rw [busCheck, if_pos (wordAccess_iff.mpr ⟨rfl, rfl⟩)]
  exact if_pos ((blocked_iff .cmd .write s.busy).mpr ⟨hb, .inr ⟨rfl, by simp⟩⟩)

section
variable {bits : Nat} {off : BitVec 14} {s : State}

theorem busRead_reached {l : Loc} (h : busCheck .read bits off s = .reaches l) :
    busRead bits off s = s.answer (s.readLoc l) := by simp only [busRead, h]

theorem busRead_refused {code : ErrCode} (h : busCheck .read bits off s = .refused code) :
    busRead bits off s = (s.raiseError code).answer 0 := by simp only [busRead, h]

theorem busWrite_refused {code : ErrCode} (w : Word) (h : busCheck .write bits off s = .refused code) :
    busWrite bits off w s = .done (s.raiseError code) := by simp only [busWrite, h]

end

/-- Settles O34: `busCheck` asks its four questions in R184's order, each of which is R184's own; and a
refused access does no more than record its code. -/
theorem busChecksRunInOrder : Obligations.BusChecksRunInOrder := by
  intro bits off s readsBusy writesBusy
  refine ⟨fun a => ?_, fun code => ⟨fun h => ?_, fun w h => ?_⟩⟩
  · by_cases hw : bits = 32 ∧ off.toNat % 4 = 0
    · rw [busCheck, if_pos (wordAccess_iff.mpr hw), if_neg (not_not_intro hw)]
      cases locate s.ibufDepth off.toNat with
      | none => rfl
      | some l => simp only [blocked_iff, denied_iff, readsBusy, writesBusy]
    · rw [busCheck, if_neg (mt wordAccess_iff.mp hw), if_pos hw]
  · rw [serve, busRead_refused h]
    rfl
  · rw [serve, busWrite_refused w h]
    rfl

/-- Settles O40: the write is refused with `BUS_BUSY`, and a refused write does no more than record its code. -/
theorem commandWhileBusyIsLost : Obligations.CommandWhileBusyIsLost :=
  fun _ w hb => busWrite_refused w (busCheck_cmd_busy hb)

/-! ### Reads (R58) -/

/-- Delivering a value changes nothing a read can return. -/
theorem readLoc_answer (s : State) (v : Word) (l : Loc) : (s.answer v).readLoc l = s.readLoc l := by
  cases l <;> rfl

/-- The first code recorded stays (R187). -/
theorem raiseError_twice (s : State) (code : ErrCode) :
    (s.raiseError code).raiseError code = s.raiseError code := by
  by_cases h : s.errcause = .none <;> simp [State.raiseError, h]

theorem raiseError_answer (s : State) (v : Word) (code : ErrCode) :
    (s.answer v).raiseError code = (s.raiseError code).answer v := rfl

theorem answer_answer (s : State) (v u : Word) :
    (s.answer v).answer u = { s with reads := s.reads ++ [v, u] } := by
  simp [State.answer]

/-- Settles O35: the first read leaves the checks and the location as they were, so the second is checked and
answered alike. -/
theorem readsAreIdempotent : Obligations.ReadsAreIdempotent := by
  intro bits off s
  cases h : busCheck .read bits off s with
  | reaches l =>
    have again : busCheck .read bits off (s.answer (s.readLoc l)) = .reaches l :=
      (busCheck_congr rfl rfl ..).trans h
    refine ⟨s.readLoc l, s.errcause, busRead_reached h, ?_⟩
    rw [busRead_reached h, busRead_reached again, readLoc_answer, answer_answer]
  | refused code =>
    have again : busCheck .read bits off ((s.raiseError code).answer 0) = .refused code :=
      (busCheck_congr rfl rfl ..).trans h
    refine ⟨0, (s.raiseError code).errcause, busRead_refused h, ?_⟩
    rw [busRead_refused h, busRead_refused again, raiseError_answer, raiseError_twice, answer_answer]
    rfl

/-! ### Reads while a command runs (R59, R61) -/

/-- A turn of the sequencer that leaves the core busy keeps `CFGV` and, like every body, the flags, the error
record and the depth. -/
theorem advance_still_busy {s : State} (hb : (advance s).busy = true) :
    BodyFrame s (advance s) ∧ (advance s).cfgv = s.cfgv := by
  rcases advance_cases s with ⟨_, e⟩ | ⟨n, k, _, _, e⟩ | ⟨n, k, v, y, _, e⟩ | ⟨n, k, _, _, e⟩ |
    ⟨k, _, e⟩ | ⟨k, v, y, _, e⟩ | ⟨i, k, p, _, _, _, e⟩ <;> rw [e] at hb ⊢
  · exact ⟨.refl s, rfl⟩
  · exact ⟨processEven_bodyFrame n k s, rfl⟩
  · exact ⟨processOdd_bodyFrame n k v s, rfl⟩
  · cases hb
  · exact ⟨by constructor <;> rfl, rfl⟩
  · cases hb
  · cases hb

/-- A location readable while busy reads `BUSY` and what `BodyFrame` and `CFGV` fix. -/
theorem readLoc_of_readableBusy {s t : State} {l : Loc} (hl : l.readableBusy = true)
    (h : BodyFrame s t) (hb : t.busy = s.busy) (hv : t.cfgv = s.cfgv) : t.readLoc l = s.readLoc l := by
  have herr : t.err = s.err := by rw [State.err, State.err, h.errcause]
  cases l with
  | id => rfl
  | cmd => rfl
  | status => simp only [State.readLoc, State.statusWord, hb, h.done, hv, h.ovf, herr]
  | errcause => simp only [State.readLoc, h.errcause]
  | caps => simp only [State.readLoc, State.ibufDepth, h.ibufDepthPred]
  | _ => cases hl

/-- Settles O31: a turn short of the completion keeps every field such a location reads. -/
theorem effectsAppearAllAtOnce : Obligations.EffectsAppearAllAtOnce := by
  intro s l hb hnext hl
  obtain ⟨frame, hv⟩ := advance_still_busy hnext
  exact readLoc_of_readableBusy hl frame (hnext.trans hb.symm) hv

/-! ### Writes (R56, R57) -/

/-- What a storing location holds of a written word, as a read returns it: the whole word, or of a 16-bit
location the low half sign-extended (R56). -/
def Loc.heldWord (l : Loc) (w : Word) : Word :=
  match l with
  | .coef _ => sext16 (lowHalf w)
  | .ibuf _ => sext16 (lowHalf w)
  | .obuf _ => sext16 (lowHalf w)
  | _ => w

theorem cells_get_set_same (c : Cells) (n : CellName) (w : Word) : (c.set n w).get n = w := by
  cases n <;> rfl

theorem cells_get_set_other (c : Cells) {n q : CellName} (w : Word) (hq : q ≠ n) :
    (c.set n w).get q = c.get q := by
  cases n <;> cases q <;> simp [Cells.set, Cells.get] at hq ⊢

section
variable (s : State) {l : Loc} (w : Word)

/-- A location that stores reads back what it holds of the word written. -/
theorem readLoc_writeLoc_same (h : l ∉ [Loc.id, .cmd, .status, .errcause, .res, .caps]) :
    (s.writeLoc l w).readLoc l = l.heldWord w := by
  cases l with
  | opa => rfl
  | opb => rfl
  | opc => rfl
  | coef n => exact congrArg sext16 (coefs_get_set_same s.coefs n _)
  | cell n => exact cells_get_set_same s.cells n w
  | ibuf k => exact congrArg sext16 (ibuf_setIbuf_same s k _)
  | obuf j => exact congrArg sext16 (obuf_setObuf_same s j _)
  | _ => simp at h

/-- A write reaches no byte but the two lanes at its own offset. -/
theorem writeLoc_byteAt {a : Nat} (h : ¬(l.offset ≤ a ∧ a < l.offset + 2)) :
    (s.writeLoc l w).byteAt a = s.byteAt a := by
  have low : a ≠ l.offset := by omega
  have high : a ≠ l.offset + 1 := by omega
  cases l with
  | ibuf k => exact byteAt_setHalf_other s _ low high
  | obuf j => exact byteAt_setHalf_other s _ low high
  | _ => exact byteAt_congr rfl rfl a

theorem writeLoc_cell_other {n : CellName} (h : l ≠ .cell n) :
    (s.writeLoc l w).cells.get n = s.cells.get n := by
  cases l with
  | cell q => exact cells_get_set_other s.cells w fun e => h (e ▸ rfl)
  | _ => rfl

theorem writeLoc_coef_other {n : CoefName} (h : l ≠ .coef n) :
    (s.writeLoc l w).coefs.get n = s.coefs.get n := by
  cases l with
  | coef q => exact coefs_get_set_other s.coefs _ fun e => h (e ▸ rfl)
  | _ => rfl

end

/-- Settles O36: an idle core serves the write and the read at the location's own offset, and each clause is
what `writeLoc` does there. -/
theorem writtenLocationReadsBack : Obligations.WrittenLocationReadsBack := by
  intro s l w hb hl hstores off wide stored
  obtain ⟨hid, hcmd, hstatus, herrcause, hres, hcaps⟩ : l ≠ .id ∧ l ≠ .cmd ∧ l ≠ .status ∧
      l ≠ .errcause ∧ l ≠ .res ∧ l ≠ .caps := by simpa using hstores
  have allowed : l.denied .write = false := by simp [Loc.denied, Loc.readOnly, hid, hres, hcaps]
  have idle (a : Access) : l.blocked a s.busy = false := by rw [hb]; rfl
  have written := serve_write_offset w hl hcmd (idle .write) allowed
  have readBack : serve (.read 32 off) (s.writeLoc l w) = .done ((s.writeLoc l w).answer _) :=
    serve_read_offset (by simpa [State.ibufDepth] using hl) (by simpa [State.busy] using idle .read)
  have held : l.heldWord w = stored := by
    simp only [stored, wide, ← lowHalf_eq, ← sext16_eq]
    cases l <;> rfl
  rw [readLoc_writeLoc_same s w hstores, held] at readBack
  refine ⟨s.writeLoc l w, written, readBack, fun _ => writeLoc_byteAt s w,
    fun _ => writeLoc_cell_other s w, fun _ => writeLoc_coef_other s w, ?_⟩
  cases l with
  | status => exact absurd rfl hstatus
  | errcause => exact absurd rfl herrcause
  | _ => rfl

end Sys2Proof.Machine
end

section
/-! ## The command word and the checks of a written command -/

namespace Sys2Proof.Machine

/-! ### Decoder and encoder (R70, R73, R74) -/

/-- The opcode map and the two field functions of a command agree (R73). -/
theorem decodeOp_opcode (i : Instr) : decodeOp (opcode i) (argument i) = .command i := by
  cases i <;> rfl

/-- Once: a word is read as a command exactly when it has that command's fields (R70, R73, R74). -/
theorem decode_eq_command_iff {w : Word} {i : Instr} :
    decode w = .command i ↔ opField w = opcode i ∧ rsvField w = 0 ∧ argField w = argument i := by
  refine ⟨fields_of_decode, fun ⟨hop, hrsv, harg⟩ => ?_⟩
  rw [decode, if_pos hrsv, hop, harg, decodeOp_opcode]

/-- The fields and the row of every well-formed command's word (R70, R73). -/
theorem encodingFields (i : Instr) : Laws.EncodingFields.Statement i :=
  match i with
  | .nop => Laws.EncodingFields.nop
  | .process n => Laws.EncodingFields.process n
  | .step => Laws.EncodingFields.step
  | .clearState => Laws.EncodingFields.clearState
  | .cfgCommit => Laws.EncodingFields.cfgCommit
  | .toFixed => Laws.EncodingFields.toFixed
  | .smul => Laws.EncodingFields.smul
  | .smla => Laws.EncodingFields.smla
  | .asr => Laws.EncodingFields.asr
  | .sat16 => Laws.EncodingFields.sat16
  | .add32 => Laws.EncodingFields.add32
  | .sub32 => Laws.EncodingFields.sub32
  | .gain => Laws.EncodingFields.gain

/-- Well-formed is: the argument fits `ARG` (R70). -/
theorem wellFormed_iff (i : Instr) : i.wellFormed = true ↔ argument i < 65536 := by
  cases i <;> simp [Instr.wellFormed, argument]

theorem decode_encode {i : Instr} (h : i.wellFormed = true) : decode (encode i) = .command i := by
  obtain ⟨hop, hrsv, harg, _⟩ := encodingFields i h
  exact decode_eq_command_iff.mpr ⟨hop, hrsv, harg⟩

theorem argField_lt (w : Word) : argField w < 65536 := by
  have := w.isLt
  simp only [argField]
  omega

theorem wellFormed_of_decode {w : Word} {i : Instr} (h : decode w = .command i) :
    i.wellFormed = true := by
  obtain ⟨_, _, harg⟩ := fields_of_decode h
  rw [wellFormed_iff, ← harg]
  exact argField_lt w

/-- Settles O2: a well-formed command's word has its fields, and fields determine the word. -/
theorem decodeAndEncodeAgree : Obligations.DecodeAndEncodeAgree :=
  ⟨fun _ => decode_encode, fun _ _ h => ⟨wellFormed_of_decode h, encode_of_decode h⟩⟩

/-- Settles O1: the decoder evaluates to the listed answer on each word. -/
theorem decodedWordsOfTheTable : Obligations.DecodedWordsOfTheTable := by
  unfold Obligations.DecodedWordsOfTheTable
  decide

/-! ### The opcode table (R73) -/

/-- Once: what a row of the table is. The row of `PROCESS` leaves `ARG` free, every other row is one word,
and that word is a command. -/
theorem row_cases {r : OpcodeRow} (h : r ∈ opcodeTable) :
    (r.bits = 0x00000001 ∧ r.mask = 0x0000FFFF) ∨
    (r.mask = 0xFFFFFFFF ∧ ∃ i, decode r.bits = .command i) := by
  simp only [opcodeTable, List.mem_cons, List.not_mem_nil, or_false] at h
  rcases h with rfl | rfl | rfl | rfl | rfl | rfl | rfl | rfl | rfl | rfl | rfl | rfl | rfl
  case inr.inl => exact .inl ⟨rfl, rfl⟩
  all_goals exact .inr ⟨rfl, _, rfl⟩

/-- The low half of a word is `RSV` and `OP` (R70). -/
theorem low_half_toNat (w : Word) :
    (w &&& 0x0000FFFF).toNat = rsvField w * 256 + opField w := by
  rw [BitVec.toNat_and, show (0x0000FFFF : Word).toNat = 2 ^ 16 - 1 from rfl,
    Nat.and_two_pow_sub_one_eq_mod]
  simp only [rsvField, opField]
  omega

/-- A word whose low half is the opcode of `PROCESS` is that command with the word's `ARG` (R72). -/
theorem decode_process {w : Word} (h : w &&& 0x0000FFFF = 0x00000001) :
    decode w = .command (.process (argField w)) := by
  have low : rsvField w * 256 + opField w = 1 := by rw [← low_half_toNat, h]; rfl
  refine decode_eq_command_iff.mpr ⟨?_, ?_, rfl⟩
  · simp only [opField, opcode] at low ⊢
    omega
  · omega

theorem decode_of_row {w : Word} {r : OpcodeRow} (hr : r ∈ opcodeTable) (hw : r.matches w = true) :
    ∃ i, decode w = .command i := by
  have pattern : w &&& r.mask = r.bits := by simpa [OpcodeRow.matches] using hw
  rcases row_cases hr with ⟨hbits, hmask⟩ | ⟨hmask, hi⟩
  · exact ⟨_, decode_process (by rw [← hmask, pattern, hbits])⟩
  · have own : w = r.bits := by rw [← pattern, hmask]; exact (BitVec.and_allOnes).symm
    rwa [own]

/-- The rows a command's word is in are one row (R73). -/
theorem rows_of_decode {w : Word} {i : Instr} (h : decode w = .command i) :
    ∃ r, opcodeTable.filter (·.matches w) = [r] := by
  obtain ⟨_, _, _, only⟩ := encodingFields i (wellFormed_of_decode h)
  rw [encode_of_decode h] at only
  obtain ⟨r, rows, _⟩ := List.map_eq_singleton_iff.mp only
  exact ⟨r, rows⟩

/-- Settles O3: a row's words are commands, and a command's word is in one row. -/
theorem decoderAcceptsExactlyTheTable : Obligations.DecoderAcceptsExactlyTheTable := by
  refine ⟨fun w => ⟨fun ⟨i, h⟩ => ?_, fun ⟨r, hr, hw⟩ => decode_of_row hr hw⟩,
    fun w r q hr hq hwr hwq => ?_⟩
  · obtain ⟨r, rows⟩ := rows_of_decode h
    exact ⟨r, List.mem_filter.mp (rows ▸ List.mem_singleton_self r)⟩
  · obtain ⟨i, h⟩ := decode_of_row hr hwr
    obtain ⟨p, rows⟩ := rows_of_decode h
    have eq_row {x : OpcodeRow} (hx : x ∈ opcodeTable) (hwx : x.matches w = true) : x = p :=
      List.mem_singleton.mp (rows ▸ List.mem_filter.mpr ⟨hx, hwx⟩)
    rw [eq_row hr hwr, eq_row hq hwq]

/-! ### Which words are commands, by their fields (R70, R74) -/

theorem extractLsb_opField (w : Word) : (w.extractLsb 7 0).toNat = opField w := by
  simp [BitVec.extractLsb_toNat, opField]

theorem extractLsb_rsvField (w : Word) : (w.extractLsb 15 8).toNat = rsvField w := by
  simp [BitVec.extractLsb_toNat, rsvField, Nat.shiftRight_eq_div_pow]

theorem extractLsb_argField (w : Word) : (w.extractLsb 31 16).toNat = argField w := by
  have := argField_lt w
  simp only [argField] at this
  simp [BitVec.extractLsb_toNat, argField, Nat.shiftRight_eq_div_pow, Nat.mod_eq_of_lt this]

/-- The opcodes of R73. -/
def tableOpcodes : List Nat := [0, 1, 2, 3, 4, 0x10, 0x11, 0x12, 0x13, 0x14, 0x15, 0x16, 0x17]

theorem opcode_mem (i : Instr) : opcode i ∈ tableOpcodes := by
  cases i <;> simp [opcode, tableOpcodes]

/-- Only `PROCESS` has an argument (R70). -/
theorem argument_eq_zero {i : Instr} (h : opcode i ≠ 1) : argument i = 0 := by
  cases i with
  | process n => exact absurd rfl h
  | _ => rfl

/-- An opcode of the table with an argument it may have is a command (R73, R74). -/
theorem decodeOp_accepts {op arg : Nat} (hop : op ∈ tableOpcodes) (harg : op ≠ 1 → arg = 0) :
    ∃ i, decodeOp op arg = .command i := by
  by_cases h1 : op = 1
  · subst h1
    exact ⟨.process arg, rfl⟩
  · obtain rfl := harg h1
    simp only [tableOpcodes, List.mem_cons, List.not_mem_nil, or_false] at hop
    rcases hop with rfl | rfl | rfl | rfl | rfl | rfl | rfl | rfl | rfl | rfl | rfl | rfl | rfl <;>
      exact ⟨_, rfl⟩

/-- Once: the three conditions of R74, none of which a command's word meets. -/
theorem isCommand_iff {w : Word} :
    (∃ i, decode w = .command i) ↔
      opField w ∈ tableOpcodes ∧ rsvField w = 0 ∧ (opField w ≠ 1 → argField w = 0) := by
  refine ⟨fun ⟨i, h⟩ => ?_, fun ⟨hop, hrsv, harg⟩ => ?_⟩
  · obtain ⟨hop, hrsv, harg⟩ := fields_of_decode h
    rw [hop, harg]
    exact ⟨opcode_mem i, hrsv, argument_eq_zero⟩
  · rw [decode, if_pos hrsv]
    exact decodeOp_accepts hop harg

/-- The conditions of R74 as bit slices of the word. -/
def illegalSlices (w : Word) : Prop :=
  (w.extractLsb 7 0).toNat ∉ tableOpcodes ∨ (w.extractLsb 15 8).toNat ≠ 0 ∨
    ((w.extractLsb 31 16).toNat ≠ 0 ∧ (w.extractLsb 7 0).toNat ≠ 1)

theorem illegalSlices_iff {w : Word} : illegalSlices w ↔ ¬∃ i, decode w = .command i := by
  rw [isCommand_iff, illegalSlices, extractLsb_opField, extractLsb_rsvField, extractLsb_argField]
  tauto

/-! ### A word written to `CMD` of an idle core (R71, R181) -/

section
variable {s : State} {rest : List HostEvent} {w : Word}

/-- An idle core takes the event and hands the word to the command logic (R59, R71). -/
theorem step_write_cmd (hh : s.host = .write 32 cmdOffset w :: rest) (hb : s.busy = false) :
    step s = commandWrite (Config.hostTurns s.draws) w { s with host := rest, draws := s.draws + 1 } := by
  have reached : busCheck .write 32 cmdOffset { s with host := rest, draws := s.draws + 1 } =
      .reaches .cmd :=
    busCheck_offset (l := .cmd) trivial (congrArg (Loc.blocked .cmd .write) hb) rfl
  simp only [step, hh, contend, hb, Bool.false_eq_true, if_false, hostTurn, serve, busWrite, reached]

/-- Check 1 of R181. -/
theorem step_illegal (hh : s.host = .write 32 cmdOffset w :: rest) (hb : s.busy = false)
    (hw : ¬∃ i, decode w = .command i) :
    step s = .next ({ s with host := rest, draws := s.draws + 1 }.rejected .cmdIllegal) := by
  rw [step_write_cmd hh hb]
  rcases commandWrite_cases (Config.hostTurns s.draws) w { s with host := rest, draws := s.draws + 1 } with
    ⟨_, _, e⟩ | ⟨i, hd, _⟩ | ⟨i, hd, _⟩
  · exact e
  · exact absurd ⟨i, hd⟩ hw
  · exact absurd ⟨i, hd⟩ hw

end

/-- Settles O4: of the ways a written word can go, the queue and the draw choose `exec` or the issue. -/
theorem stepRunsTheWrittenCommand : Obligations.StepRunsTheWrittenCommand := by
  intro s rest w i hh hb hd
  rw [step_write_cmd hh hb]
  rcases commandWrite_cases (Config.hostTurns s.draws) w { s with host := rest, draws := s.draws + 1 } with
    ⟨why, hi, _⟩ | ⟨j, hj, alone, e⟩ | ⟨j, hj, hrest, hturns, e⟩
  · cases hd.symm.trans hi
  · cases hd.symm.trans hj
    rw [e, if_pos alone]
  · cases hd.symm.trans hj
    rw [e, if_neg (not_or.mpr ⟨hrest, hturns⟩)]

/-- Settles O5: the three conditions are those of an illegal word. -/
theorem illegalWordIsRefused : Obligations.IllegalWordIsRefused := by
  intro s rest w hh hb hw
  have nonzero := hw.imp_right (Or.imp BitVec.toNat_ne.mp (And.imp BitVec.toNat_ne.mp BitVec.toNat_ne.mp))
  exact step_illegal hh hb (illegalSlices_iff.mp nonzero)

/-! ### Checks 2 to 4 of R181 -/

section
variable {s : State} {i : Instr} {c : ErrCode}

/-- `COEF_OK`, written out (R24). -/
theorem coefs_ok_iff (c : Coefs) :
    c.ok = true ↔ 0 < c.a0e.toInt ∧ c.a1e.toInt < 0 ∧ 0 < c.a0o.toInt ∧ c.a1o.toInt < 0 := by
  simp [Coefs.ok, and_assoc]

/-- Once: the checks of a command by its opcode, in the order of R181. -/
theorem commandError_eq (i : Instr) (s : State) :
    commandError i s =
      if (opcode i = 1 ∨ opcode i = 2) ∧ s.cfgv = false then some .cmdNotCfg
      else if opcode i = 1 ∧ s.ibufDepth < argument i then some .cmdBadLen
      else if opcode i = 4 ∧ ¬(0 < s.coefs.a0e.toInt ∧ s.coefs.a1e.toInt < 0 ∧
          0 < s.coefs.a0o.toInt ∧ s.coefs.a1o.toInt < 0) then some .cfgInvalid
      else none := by
  simp only [← coefs_ok_iff, Bool.not_eq_true]
  cases i <;> simp [commandError, opcode, argument]

theorem exec_rejected (h : commandError i s = some c) : exec i s = .next (s.rejected c) := by
  rw [exec_eq, runCommand_rejected _ h]

/-- A command whose checks pass completes and leaves the error record (R71, R182). -/
theorem exec_completes (h : commandError i s = none) :
    ∃ t, exec i s = .next t ∧ t.done = true ∧ t.busy = false ∧ t.errcause = s.errcause := by
  rw [exec_eq, runCommand_accepted _ h]
  exact ⟨_, rfl, rfl, rfl, (bodyOf_bodyFrame i _).errcause⟩

theorem issue_rejected (h : commandError i s = some c) : s.issue i = s.rejected c := by
  simp only [State.issue, h, reject_eq_rejected]

end

/-- Settles O28: execution and issue reject alike, and a rejection does not write the position. -/
theorem rejectionNeedsNoTurn : Obligations.RejectionNeedsNoTurn := by
  intro i s code h
  have issued := issue_rejected h
  exact ⟨issued ▸ exec_rejected h, issued ▸ rfl, issued⟩

/-- Settles O6: an illegal word is refused by check 1; a command's checks are those of `commandError`, and
with no event behind it the step is `exec`. -/
theorem commandChecksRunInOrder : Obligations.CommandChecksRunInOrder := by
  intro s w hh hb op rsv arg q
  split
  next hw => exact step_illegal hh hb (illegalSlices_iff.mp hw)
  next hw =>
    obtain ⟨i, hd⟩ := not_not.mp (mt illegalSlices_iff.mpr hw)
    have run : step s = exec i q := by
      rw [stepRunsTheWrittenCommand s [] w i hh hb hd, if_pos (.inl rfl)]
    have checks := commandError_eq i q
    obtain ⟨hop, _, harg⟩ := fields_of_decode hd
    rw [← hop, ← harg, ← extractLsb_opField, ← extractLsb_argField] at checks
    rw [run]
    split_ifs with h2 h3 h4
    · exact exec_rejected (checks.trans (if_pos h2))
    · exact exec_rejected (checks.trans ((if_neg h2).trans (if_pos h3)))
    · exact exec_rejected (checks.trans ((if_neg h2).trans ((if_neg h3).trans (if_pos h4))))
    · exact exec_completes (checks.trans ((if_neg h2).trans ((if_neg h3).trans (if_neg h4))))

end Sys2Proof.Machine
end

section
/-! ## The primitive commands -/

namespace Sys2Proof.Machine

/-! ### The values of the primitives (R100 to R106) -/

/-- A wrapped value and its overflow record, as R12, R105 and R106 state them. -/
theorem wrap32_spec (v : Int) :
    (wrap32 v).toInt = (v + 2 ^ 31) % 2 ^ 32 - 2 ^ 31 ∧
      ((!fits32 v) = true ↔ ¬(-2 ^ 31 ≤ v ∧ v ≤ 2 ^ 31 - 1)) := by
  refine ⟨wrap32_toInt v, ?_⟩
  rw [Bool.not_eq_true', ← Bool.not_eq_true, fits32_iff]
  norm_num

theorem toFixed_toInt (h : Half) : (toFixed h).toInt = h.toInt * 1024 := by
  have := half_range h
  exact wrap32_toInt_of_fits (by omega) (by omega)

/-- The exact product of an `int32` and an `int16` fits 48 bits (R101). -/
theorem abs_product_le (x : Word) (c : Half) : |x.toInt * c.toInt| ≤ 2 ^ 46 := by
  have hx : |x.toInt| ≤ 2 ^ 31 := by
    have := word_range x
    exact abs_le.mpr (by omega)
  have hc : |c.toInt| ≤ 2 ^ 15 := by
    have := half_range c
    exact abs_le.mpr (by omega)
  calc |x.toInt * c.toInt| = |x.toInt| * |c.toInt| := abs_mul _ _
    _ ≤ 2 ^ 31 * 2 ^ 15 := mul_le_mul hx hc (abs_nonneg _) (by norm_num)
    _ = 2 ^ 46 := by norm_num

/-- The floor of a product over `2^16` stays far inside `int32` (R101). -/
theorem product_floor_range (x : Word) (c : Half) :
    -2 ^ 30 ≤ x.toInt * c.toInt / 2 ^ 16 ∧ x.toInt * c.toInt / 2 ^ 16 ≤ 2 ^ 30 := by
  have := abs_le.mp (abs_product_le x c)
  omega

theorem smul_toInt (x : Word) (c : Half) : (smul x c).toInt = x.toInt * c.toInt / 2 ^ 16 := by
  have := product_floor_range x c
  exact wrap32_toInt_of_fits (by omega) (by omega)

/-- The floor shift as the library writes it (R103). -/
theorem asr_eq (x : Word) (n : Nat) : asr x n = x.sshiftRight n := by
  have floor : x.toInt / 2 ^ n = (x.sshiftRight n).toInt := by
    rw [BitVec.toInt_sshiftRight, Int.shiftRight_eq_div_pow]
    norm_num
  rw [asr, floor, wrap32, BitVec.ofInt_toInt]

/-- A floor shift never wraps (R103). -/
theorem asr_toInt (x : Word) (n : Nat) : (asr x n).toInt = x.toInt / 2 ^ n := by
  rw [asr_eq, BitVec.toInt_sshiftRight, Int.shiftRight_eq_div_pow]
  norm_num

theorem sat16_toInt (x : Word) : (sat16 x).toInt = max (-32768) (min 32767 x.toInt) := by
  rw [sat16]
  split
  · rw [ofInt16_toInt] <;> omega
  · split <;> rw [ofInt16_toInt] <;> omega

/-! ### The commands (R109 to R116) -/

/-- Once: a command whose checks pass and whose body only writes `RES` completes with that result and that
overflow record, everything else unchanged (R71, R109). -/
theorem exec_writeRes {i : Instr} {s : State} {r : Word} {wrapped : Bool} (checks : commandError i s = none)
    (body : bodyOf i (s.beginCommand.accept i) = (s.beginCommand.accept i).writeRes r wrapped) :
    exec i s = .next ({ s with res := r }.completed wrapped) := by
  rw [exec_eq, runCommand_accepted _ checks, body]
  rfl

/-- Settles O7: an `int16` times 1024 is an `int32`. -/
theorem tofixedWidensExactly : Obligations.TofixedWidensExactly :=
  ⟨rfl, fun s => ⟨toFixed s.sampleOperand, exec_writeRes rfl rfl, by
    rw [toFixed_toInt, State.sampleOperand, lowHalf_eq]⟩⟩

/-- Settles O8: the floor of the product is in range, so the wrap keeps it. -/
theorem smulFloorsTheExactProduct : Obligations.SmulFloorsTheExactProduct := by
  refine ⟨rfl, fun s => ⟨smul s.opa s.smulCoef, exec_writeRes rfl rfl, ?_⟩⟩
  rw [smul_toInt, State.smulCoef, lowHalf_eq]
  exact ⟨rfl, product_floor_range s.opa (s.opb.setWidth 16)⟩

/-- Settles O9: only the addition of the product to the base can wrap. -/
theorem smlaAddsAndRecordsTheWrap : Obligations.SmlaAddsAndRecordsTheWrap := by
  refine ⟨rfl, fun s => ⟨_, _, exec_writeRes rfl rfl, ?_⟩⟩
  rw [← lowHalf_eq, ← smul_toInt]
  exact wrap32_spec (s.opa.toInt + (smul s.opb s.smlaCoef).toInt)

/-- Settles O10: the shift amount is `OPB[4:0]`. -/
theorem asrFloorsByTheShiftAmount : Obligations.AsrFloorsByTheShiftAmount :=
  ⟨rfl, fun s => ⟨asr s.opa s.shiftAmount, exec_writeRes rfl rfl, by
    rw [asr_toInt, State.shiftAmount, BitVec.toNat_setWidth]⟩⟩

/-- Settles O11: the clamped half keeps its value when it is sign-extended. -/
theorem sat16ClampsToTheRange : Obligations.Sat16ClampsToTheRange :=
  ⟨rfl, fun s => ⟨sext16 (sat16 s.opa), exec_writeRes rfl rfl, by rw [sext16_toInt, sat16_toInt]⟩⟩

/-- Settles O12: result and record are the wrap of the exact sum. -/
theorem add32WrapsAndRecordsIt : Obligations.Add32WrapsAndRecordsIt :=
  ⟨rfl, fun s => ⟨_, _, exec_writeRes rfl rfl, wrap32_spec (s.opa.toInt + s.opb.toInt)⟩⟩

/-- Settles O13: result and record are the wrap of the exact difference. -/
theorem sub32WrapsAndRecordsIt : Obligations.Sub32WrapsAndRecordsIt :=
  ⟨rfl, fun s => ⟨_, _, exec_writeRes rfl rfl, wrap32_spec (s.opa.toInt - s.opb.toInt)⟩⟩

end Sys2Proof.Machine
end

section
/-! ## The sample step -/

namespace Sys2Proof.Machine

/-! ### The outputs (R143, R150) -/

/-- The even output is the output stage on the even notch role's pre-gain value. -/
theorem sampleStep_yE (c : Coefs) (m : Cells) (x : Half) :
    (sampleStep c m x).yE =
      gain (notchEven (allpass (toFixed x) m.s0 m.s1 c.a0e c.a1e).out2 m.s4 m.s5 c).pre c.n3 := by
  rw [sampleStep, evenPhase]

/-- The odd output is the output stage on the odd notch role's pre-gain value, which reads the cells the
even phase left. -/
theorem sampleStep_yO (c : Coefs) (m : Cells) (x : Half) :
    let e := (evenPhase c m (toFixed x)).cells
    (sampleStep c m x).yO =
      gain (notchOdd (allpass (toFixed x) e.s2 e.s3 c.a0o c.a1o).out2 e.s4 e.s5 c).pre c.n3 := by
  rw [sampleStep, oddPhase]

/-! ### The overflow record -/

/-- The output stage's addition is `256` plus a floored product, far inside `int32` (R143). -/
theorem gainWraps_eq_false (pre : Word) (n3 : Half) : gainWraps pre n3 = false := by
  have base : (256 : Word).toInt = 256 := rfl
  have product := smul_toInt pre n3
  have range := product_floor_range pre n3
  exact addWraps_eq_false (by omega) (by omega)

/-- What the wrapping primitives of an allpass phase record, in the order of R130 and R131. -/
def allpassRecords (v sA sB : Word) (a0 a1 : Half) : List Bool :=
  let x := smul (sub32 v sA) a0
  let out1 := add32 sA x
  let y2 := sub32 out1 sB
  let x2 := smla y2 y2 a1
  [subWraps v sA, addWraps sA x, addWraps v x, subWraps out1 sB, smlaWraps y2 y2 a1, addWraps sB x2,
    addWraps out1 x2]

/-- What the wrapping primitives of a notch role record, in the order of R140. -/
def notchRecords (out2 own other : Word) (c : Coefs) : List Bool :=
  let acc1 := smla out2 own c.n2
  let acc2 := smla acc1 other c.n1
  [smlaWraps out2 own c.n2, smlaWraps acc1 other c.n1, smlaWraps acc2 other c.n0, subWraps acc2 own]

theorem allpass_wrapped_iff (v sA sB : Word) (a0 a1 : Half) :
    (allpass v sA sB a0 a1).wrapped = true ↔ true ∈ allpassRecords v sA sB a0 a1 := by
  simp [allpass, allpassFirst, allpassSecond, allpassRecords, or_assoc]

theorem notchRole_wrapped_iff (out2 own other : Word) (c : Coefs) :
    (notchRole out2 own other c).wrapped = true ↔ true ∈ notchRecords out2 own other c := by
  simp [notchRole, notchRecords, or_assoc]

/-- The even phase records what its allpass and the even notch role do: its output stage never wraps. -/
theorem evenPhase_wrapped_iff (c : Coefs) (m : Cells) (v : Word) :
    (evenPhase c m v).wrapped = true ↔ true ∈ allpassRecords v m.s0 m.s1 c.a0e c.a1e ++
      notchRecords (allpass v m.s0 m.s1 c.a0e c.a1e).out2 m.s5 m.s4 c := by
  rw [evenPhase, gainWraps_eq_false, Bool.or_false, Bool.or_eq_true, allpass_wrapped_iff, notchEven,
    notchRole_wrapped_iff, List.mem_append]

/-- The odd phase records what its allpass and the odd notch role do: its output stage never wraps. -/
theorem oddPhase_wrapped_iff (c : Coefs) (m : Cells) (v : Word) :
    (oddPhase c m v).wrapped = true ↔ true ∈ allpassRecords v m.s2 m.s3 c.a0o c.a1o ++
      notchRecords (allpass v m.s2 m.s3 c.a0o c.a1o).out2 m.s4 m.s5 c := by
  rw [oddPhase, gainWraps_eq_false, Bool.or_false, Bool.or_eq_true, allpass_wrapped_iff, notchOdd,
    notchRole_wrapped_iff, List.mem_append]

/-- The odd phase runs on the cells the even phase left, so its records follow the even ones (R150). -/
theorem sampleStep_wrapped_iff (c : Coefs) (m : Cells) (x : Half) :
    let v := toFixed x
    let e := (evenPhase c m v).cells
    (sampleStep c m x).wrapped = true ↔ true ∈
      (allpassRecords v m.s0 m.s1 c.a0e c.a1e ++
        notchRecords (allpass v m.s0 m.s1 c.a0e c.a1e).out2 m.s5 m.s4 c) ++
      (allpassRecords v e.s2 e.s3 c.a0o c.a1o ++
        notchRecords (allpass v e.s2 e.s3 c.a0o c.a1o).out2 e.s4 e.s5 c) := by
  intro v e
  rw [List.mem_append, ← evenPhase_wrapped_iff, ← oddPhase_wrapped_iff, ← Bool.or_eq_true]
  rfl

/-- Settles O19: the cells are the equations by unfolding, each output is the output stage on its pre-gain
value, and the four lists of records in order are the list of the statement. -/
theorem sampleStepFollowsItsEquations : Obligations.SampleStepFollowsItsEquations := by
  intro c m x v y x1 out1 y2 x2 out2 acc1 acc2 preE s5 yo x1o out1o y2o x2o out2o acc1o acc2o preO r
  have cells : r.cells =
      ⟨add32 v x1, add32 out1 x2, add32 v x1o, add32 out1o x2o, sub32 acc2o m.s4, s5⟩ := rfl
  have even : r.yE = gain preE c.n3 := sampleStep_yE c m x
  have odd : r.yO = gain preO c.n3 := sampleStep_yO c m x
  rw [gain] at even odd
  exact ⟨cells, even, odd, sampleStep_wrapped_iff c m x⟩

end Sys2Proof.Machine
end

section
/-! ## The output stage (42_notch) -/

namespace Sys2Proof.Machine

/-- An addition that records no wrap is exact (R105). -/
theorem add32_toInt_of_not_addWraps {a b : Word} (h : addWraps a b = false) :
    (add32 a b).toInt = a.toInt + b.toInt := by
  rw [addWraps, Bool.not_eq_false', fits32_iff] at h
  obtain ⟨low, high⟩ := h
  exact wrap32_toInt_of_fits low high

/-- The output stage is exact until its clamp: its addition never wraps, and its product and shift cannot
(R143). -/
theorem gain_toInt (pre : Word) (n3 : Half) :
    (gain pre n3).toInt =
      max (-32768) (min 32767 ((pre.toInt * n3.toInt / 2 ^ 16 + 256) / 512)) := by
  have sum : (smla 256 pre n3).toInt = 256 + pre.toInt * n3.toInt / 2 ^ 16 := by
    rw [smla, add32_toInt_of_not_addWraps (gainWraps_eq_false pre n3), smul_toInt]
    rfl
  have shifted : (asr (smla 256 pre n3) 9).toInt = (pre.toInt * n3.toInt / 2 ^ 16 + 256) / 512 := by
    rw [asr_toInt, sum, add_comm]
    norm_num
  rw [gain, sat16_toInt, shifted]

/-- Settles O15: `256` plus a floored product of an `int32` and an `int16` stays inside `int32`. -/
theorem outputStageNeverWraps : Obligations.OutputStageNeverWraps := gainWraps_eq_false

/-- Settles O14: the clamped half keeps its value when it is sign-extended, and no wrap is recorded. -/
theorem gainRoundsAndClamps : Obligations.GainRoundsAndClamps := by
  refine ⟨rfl, fun s => ⟨sext16 (gain s.opa s.coefs.n3), ?_, by rw [sext16_toInt, gain_toInt]⟩⟩
  have completes : exec .gain s = .next
      ({ s with res := sext16 (gain s.opa s.coefs.n3) }.completed (gainWraps s.opa s.coefs.n3)) :=
    exec_writeRes rfl rfl
  rwa [gainWraps_eq_false] at completes

end Sys2Proof.Machine
end

section
/-! ## The filter commands and the block function -/

namespace Sys2Proof.Machine

/-! ### `STEP` (R153) -/

/-- A configured core's `STEP` completes with one sample step on `OPA[15:0]`, its outputs in the halves of
`RES`. -/
theorem exec_step_completes {s : State} (hc : s.cfgv = true) :
    let r := sampleStep s.coefs s.cells (s.opa.setWidth 16)
    exec .step s = .next ({ s with cells := r.cells, res := r.yO ++ r.yE }.completed r.wrapped) := by
  have checks : commandError .step s = none := by simp [commandError, hc]
  intro r
  have operand : r = sampleStep s.coefs s.cells s.sampleOperand := by rw [State.sampleOperand, lowHalf_eq]
  let a := s.beginCommand.accept .step
  have body : bodyOf .step a =
      { a.writeRes (pack16 r.yO r.yE) r.wrapped with cells := r.cells } := by rw [operand]; rfl
  rw [exec_eq, runCommand_accepted _ checks, body, pack16_eq]
  clear_value r
  rfl

/-- Settles O20: the one check of `STEP` is `CFGV`. -/
theorem stepCommandFiltersOneSample : Obligations.StepCommandFiltersOneSample := by
  refine ⟨rfl, fun s => ?_⟩
  intro r
  split
  next hc => exact exec_step_completes hc
  next hc => exact exec_rejected (by simp [commandError, hc])

/-! ### The block function (R151, R156) -/

/-- Settles O22, by induction on the first list. -/
theorem blocksConcatenate : Obligations.BlocksConcatenate := by
  intro c m a b
  induction a generalizing m with
  | nil => rfl
  | cons x xs ih => simp only [List.cons_append, blockFilter, ih, Bool.or_assoc]

/-- The low half of a word put together from two halves. -/
theorem append_setWidth_low (hi lo : Half) : (hi ++ lo : Word).setWidth 16 = lo := by
  rw [← pack16_eq, ← lowHalf_eq, pack16_low]

/-- The high half of a word put together from two halves. -/
theorem append_setWidth_high (hi lo : Half) : ((hi ++ lo : Word) >>> 16).setWidth 16 = hi := by
  apply BitVec.eq_of_toNat_eq
  have high := hi.isLt
  have low := lo.isLt
  rw [← pack16_eq]
  simp only [pack16, BitVec.toNat_setWidth, BitVec.toNat_ushiftRight, BitVec.toNat_ofNat,
    Nat.shiftRight_eq_div_pow]
  omega

/-- Settles O24: the block function on a nonempty input starts with the sample step that `STEP` runs. -/
theorem stepIsABlockOfOneSample : Obligations.StepIsABlockOfOneSample := by
  intro s xs hc
  refine ⟨_, exec_step_completes hc, rfl, hc, ?_⟩
  simp only [State.completed, append_setWidth_low, append_setWidth_high]
  exact ⟨rfl, rfl⟩

/-! ### Zero input on zero cells (R157) -/

@[simp] theorem smul_zero_left (c : Half) : smul 0#32 c = 0#32 := by simp [smul, wrap32]

@[simp] theorem add32_zero (a : Word) : add32 a 0#32 = a := by simp [add32, wrap32]

@[simp] theorem sub32_self (a : Word) : sub32 a a = 0#32 := by simp [sub32, wrap32]

@[simp] theorem smla_zero_left (b : Word) (c : Half) : smla b 0#32 c = b := by simp [smla]

@[simp] theorem addWraps_zero (a : Word) : addWraps a 0#32 = false := by
  have := word_range a
  simpa [addWraps, fits32_iff] using this

@[simp] theorem subWraps_self (a : Word) : subWraps a a = false := by simp [subWraps, fits32_iff]

@[simp] theorem smlaWraps_zero_left (b : Word) (c : Half) : smlaWraps b 0#32 c = false := by
  simp [smlaWraps]

@[simp] theorem allpass_zero (a0 a1 : Half) :
    allpass 0#32 0#32 0#32 a0 a1 = { out2 := 0, sA := 0, sB := 0, wrapped := false } := by
  simp [allpass, allpassFirst, allpassSecond]

@[simp] theorem notchRole_zero (c : Coefs) :
    notchRole 0#32 0#32 0#32 c = { pre := 0, cell := 0, wrapped := false } := by
  simp [notchRole]

/-- The rounding constant alone is shifted out. -/
@[simp] theorem gain_zero (n3 : Half) : gain 0#32 n3 = 0#16 := by
  rw [gain, smla_zero_left]
  rfl

theorem evenPhase_zero (c : Coefs) :
    evenPhase c Cells.zero 0 = { cells := Cells.zero, y := 0, wrapped := false } := by
  simp [evenPhase, Cells.zero, notchEven, gainWraps]

theorem oddPhase_zero (c : Coefs) :
    oddPhase c Cells.zero 0 = { cells := Cells.zero, y := 0, wrapped := false } := by
  simp [oddPhase, Cells.zero, notchOdd, gainWraps]

theorem sampleStep_zero (c : Coefs) :
    sampleStep c Cells.zero 0 = { cells := Cells.zero, yE := 0, yO := 0, wrapped := false } := by
  have input : toFixed 0 = 0 := rfl
  simp only [sampleStep, input, evenPhase_zero, oddPhase_zero, Bool.or_false]

/-- Settles O25: a sample step on zeros gives zeros, so each sample leaves the next one the same start. -/
theorem zeroInputGivesZeroOutput : Obligations.ZeroInputGivesZeroOutput := by
  intro c n
  induction n with
  | zero => rfl
  | succ n ih =>
    rw [← Cells.zero] at ih ⊢
    simp only [List.replicate_succ, blockFilter, sampleStep_zero, ih, Nat.mul_succ, Bool.or_false]

/-! ### The loop of `PROCESS` is the block function (R151, R152) -/

/-- The input words from `IBUF[k]` on. -/
def State.inputs (s : State) (k left : Nat) : List Half := (List.range' k left).map s.ibuf

/-- The output words from `OBUF[j]` on. -/
def State.outputs (s : State) (j left : Nat) : List Half := (List.range' j left).map s.obuf

theorem inputs_succ (s : State) (k left : Nat) :
    s.inputs k (left + 1) = s.ibuf k :: s.inputs (k + 1) left := rfl

/-- Two runs of buffer words are equal word by word, wherever each starts. -/
theorem words_eq_iff {f g : Nat → Half} {i j n : Nat} :
    (List.range' i n).map f = (List.range' j n).map g ↔ ∀ k, k < n → f (i + k) = g (j + k) := by
  simp only [List.range'_eq_map_range, List.map_map, List.map_inj_left, List.mem_range,
    Function.comp_apply]

theorem inputs_eq_iff {s t : State} {i j n : Nat} :
    t.inputs i n = s.inputs j n ↔ ∀ k, k < n → t.ibuf (i + k) = s.ibuf (j + k) := words_eq_iff

theorem outputs_eq_iff {s t : State} {i j n : Nat} :
    t.outputs i n = s.outputs j n ↔ ∀ k, k < n → t.obuf (i + k) = s.obuf (j + k) := words_eq_iff

theorem inputs_add (s : State) (k a b : Nat) :
    s.inputs k (a + b) = s.inputs k a ++ s.inputs (k + a) b := by
  simp [State.inputs, ← List.range'_append_1]

theorem outputs_add (s : State) (j a b : Nat) :
    s.outputs j (a + b) = s.outputs j a ++ s.outputs (j + a) b := by
  simp [State.outputs, ← List.range'_append_1]

theorem outputs_two (s : State) (j left : Nat) :
    s.outputs j (left + 2) = s.obuf j :: s.obuf (j + 1) :: s.outputs (j + 2) left := rfl

theorem length_outputs (s : State) (j left : Nat) : (s.outputs j left).length = left := by
  simp [State.outputs]

/-- A sample's two outputs stand in its two `OBUF` words. -/
theorem processSample_obuf (s : State) (k : Nat) :
    let r := sampleStep s.coefs s.cells (s.ibuf k)
    (processSample k s).obuf (2 * k) = r.yE ∧ (processSample k s).obuf (2 * k + 1) = r.yO := by
  intro r
  have stored (j : Nat) :
      (processSample k s).obuf j = ((s.setObuf (2 * k) r.yE).setObuf (2 * k + 1) r.yO).obuf j :=
    obuf_congr (processSample_mem s k) rfl j
  rw [stored, stored, obuf_setObuf_same, obuf_setObuf_other _ _ (by omega), obuf_setObuf_same]
  exact ⟨rfl, rfl⟩

/-- The loop leaves the `OBUF` words below those of its samples. -/
theorem processLoop_obuf_below (left k : Nat) (s : State) {j : Nat} (hj : j < 2 * k) :
    (processLoop left k s).obuf j = s.obuf j := by
  refine halfAt_congr ?_ ?_
  all_goals
    refine processLoop_byteAt left k s fun i low _ => ?_
    simp only [obufAddr]
    omega

/-- The loop of R152 is the block function of R151: no store to `OBUF` reaches an input still to be read,
so cells, overflow record and outputs are those of a block on the inputs as they stood. -/
theorem processLoop_block (left k : Nat) (s : State) (h : k + left ≤ 1024) :
    let r := blockFilter s.coefs s.cells (s.inputs k left)
    let t := processLoop left k s
    t.cells = r.cells ∧ t.ovfPend = (s.ovfPend || r.wrapped) ∧ t.outputs (2 * k) (2 * left) = r.out := by
  induction left generalizing k s with
  | zero => exact ⟨rfl, (Bool.or_false _).symm, rfl⟩
  | succ left ih =>
    have rest : (processSample k s).inputs (k + 1) left = s.inputs (k + 1) left :=
      inputs_eq_iff.mpr fun i _ => processSample_ibuf s k (by omega)
    obtain ⟨cells, wrapped, outs⟩ := ih (k + 1) (processSample k s) (by omega)
    obtain ⟨even, odd⟩ := processSample_obuf s k
    rw [rest] at cells wrapped outs
    rw [inputs_succ]
    refine ⟨cells, wrapped.trans (Bool.or_assoc _ _ _), ?_⟩
    rw [Nat.mul_succ, outputs_two, processLoop, processLoop_obuf_below _ _ _ (by omega), even,
      processLoop_obuf_below _ _ _ (by omega), odd]
    exact congrArg (_ :: _ :: ·) outs

/-! ### `PROCESS` (R152, R156, R158) -/

/-- `ARG` above the opcode of `PROCESS` is that command's word (R70, R73). -/
theorem append_eq_encode_process {n : Nat} (hn : n < 65536) :
    (BitVec.ofNat 16 n ++ (0x0001 : BitVec 16) : Word) = encode (.process n) := by
  rw [← pack16_eq, pack16, BitVec.toNat_ofNat, Nat.mod_eq_of_lt hn]
  rfl

/-- What `PROCESS N` computes: the block function on the cells and `IBUF[0..N-1]`. -/
def State.block (s : State) (n : Nat) : BlockResult := blockFilter s.coefs s.cells (s.inputs 0 n)

/-- Once: what an accepted `PROCESS N` leaves. -/
theorem exec_process_completes {s : State} {n : Nat} (hc : s.cfgv = true) (hn : n ≤ s.ibufDepth) :
    ∃ m : Memory, ∃ t : State,
      t = { s with cells := (s.block n).cells, mem := m }.completed (s.block n).wrapped ∧
      exec (.process n) s = .next t ∧ t.outputs 0 (2 * n) = (s.block n).out ∧
      ∀ a, (∀ j, j < 2 * n → a ≠ obufAddr j ∧ a ≠ obufAddr j + 1) → t.byteAt a = s.byteAt a := by
  have checks : commandError (.process n) s = none := by simp [commandError, hc, hn]
  have depth := ibufDepth_range s
  let a := s.beginCommand.accept (.process n)
  obtain ⟨cells, wrapped, outs⟩ := processLoop_block n 0 a (by omega)
  refine ⟨(processLoop n 0 a).mem, (processLoop n 0 a).complete, ?_, ?_, outs, fun x hx => ?_⟩
  · rw [processLoop_frame, cells, wrapped]
    rfl
  · rw [exec_eq, runCommand_accepted _ checks]
    rfl
  · exact processLoop_byteAt n 0 a fun j _ hj => hx j (by omega)

/-- Settles O21: `CFGV` and the depth are the checks in this order, and the accepted loop is the block
function on the inputs. -/
theorem processFillsTheOutputBuffer : Obligations.ProcessFillsTheOutputBuffer := by
  refine ⟨fun n hn => ?_, fun s n => ?_⟩
  · rw [append_eq_encode_process hn]
    exact decode_encode (decide_eq_true hn)
  split
  next hc => exact exec_rejected (by simp [commandError, hc])
  next hc =>
    split
    next hn => exact exec_rejected (by simp [commandError, hc, hn])
    next hn =>
      intro r
      obtain ⟨m, t, ht, run, outs, frame⟩ := exec_process_completes (by simpa using hc) (not_lt.mp hn)
      have block : s.block n = r := by rw [State.block, State.inputs, ← List.range_eq_range']
      rw [block] at ht outs
      refine ⟨m, t, ht, run, by rw [← outs, length_outputs], fun j hj => ?_, frame⟩
      simp [← outs, State.outputs, hj]

/-- A command's meaning has one result. -/
theorem next_unique {i : Instr} {s t u : State} (h : exec i s = .next t) (h' : exec i s = .next u) :
    t = u := Host.Outcome.next.inj (h.symm.trans h')

/-- What an accepted `PROCESS N` computes, for a result at hand. -/
theorem exec_process_block {s t : State} {n : Nat} (hc : s.cfgv = true) (hn : n ≤ s.ibufDepth)
    (h : exec (.process n) s = .next t) :
    t.cells = (s.block n).cells ∧ t.ovfPend = (s.block n).wrapped ∧
      t.outputs 0 (2 * n) = (s.block n).out := by
  obtain ⟨m, u, hu, run, outs, _⟩ := exec_process_completes hc hn
  obtain rfl := next_unique h run
  exact ⟨congrArg State.cells hu, congrArg State.ovfPend hu, outs⟩

/-- Blocks of equal coefficients, cells and input words are equal. -/
theorem block_congr {s u : State} {n : Nat} (coefs : u.coefs = s.coefs) (cells : u.cells = s.cells)
    (inputs : ∀ k, k < n → u.ibuf k = s.ibuf k) : u.block n = s.block n := by
  have words : u.inputs 0 n = s.inputs 0 n := inputs_eq_iff.mpr (by simpa using inputs)
  rw [State.block, coefs, cells, words, State.block]

/-- A block of `m + n` input words is a block of the first `m`, then one of the rest from the cells the
first left, where a state `v` holds those cells and the rest of the input (R156). -/
theorem block_add {s v : State} {m n : Nat} (coefs : v.coefs = s.coefs)
    (cells : v.cells = (s.block m).cells) (inputs : ∀ k, k < n → v.ibuf k = s.ibuf (m + k)) :
    (s.block (m + n)).cells = (v.block n).cells ∧
      (s.block (m + n)).out = (s.block m).out ++ (v.block n).out := by
  have rest : v.inputs 0 n = s.inputs m n := inputs_eq_iff.mpr (by simpa using inputs)
  have whole : s.inputs 0 (m + n) = s.inputs 0 m ++ v.inputs 0 n := by
    rw [rest, inputs_add, Nat.zero_add]
  have concatenated := blocksConcatenate s.coefs s.cells (s.inputs 0 m) (v.inputs 0 n)
  rw [← whole] at concatenated
  rw [State.block, concatenated, State.block, State.block, coefs, cells]
  exact ⟨rfl, rfl⟩

/-- Settles O23: the outputs of the whole are those of the first part, then those of the second. -/
theorem processSplitsAtAnyPoint : Obligations.ProcessSplitsAtAnyPoint := by
  intro s u v m n hs hd first hv coefs cells hn inputs
  obtain ⟨_, t, _, whole, _⟩ := exec_process_completes hs hd
  obtain ⟨_, w, _, second, _⟩ := exec_process_completes hv hn
  obtain ⟨cells_u, _, outs_u⟩ := exec_process_block hs (by omega) first
  obtain ⟨cells_t, _, outs_t⟩ := exec_process_block hs hd whole
  obtain ⟨cells_w, _, outs_w⟩ := exec_process_block hv hn second
  obtain ⟨same_cells, same_out⟩ := block_add coefs (cells.trans cells_u) inputs
  rw [same_out, ← outs_u, ← outs_w, Nat.mul_add, outputs_add, Nat.zero_add] at outs_t
  obtain ⟨front, back⟩ := List.append_inj outs_t (by rw [length_outputs, length_outputs])
  refine ⟨t, w, whole, second, by rw [cells_t, same_cells, cells_w], fun j hj => ?_, fun j hj => ?_⟩
  · simpa using outputs_eq_iff.mp front j hj
  · simpa using outputs_eq_iff.mp back j hj

/-- Settles O26: both results are those of the block function, and of the sample step, on equal operands. -/
theorem filtersDependOnTheirInputsAlone : Obligations.FiltersDependOnTheirInputsAlone := by
  intro s u t v hs hu coefs cells
  refine ⟨fun n hsn hun inputs run run' => ?_, fun operand run run' => ?_⟩
  · obtain ⟨cells_t, wrapped_t, outs_t⟩ := exec_process_block hs hsn run
    obtain ⟨cells_v, wrapped_v, outs_v⟩ := exec_process_block hu hun run'
    rw [block_congr coefs cells inputs] at cells_v wrapped_v outs_v
    refine ⟨cells_v.trans cells_t.symm, wrapped_v.trans wrapped_t.symm, fun j hj => ?_⟩
    simpa using outputs_eq_iff.mp (outs_v.trans outs_t.symm) j hj
  · obtain rfl := next_unique run (exec_step_completes hs)
    obtain rfl := next_unique run' (exec_step_completes hu)
    simp only [State.completed, coefs, cells, operand, and_self]

end Sys2Proof.Machine
end

section
/-! ## The setup commands (44_control) -/

namespace Sys2Proof.Machine

/-- A state that begins a command, accepts it and completes it at once has recorded no wrap (R71). -/
theorem complete_accept (s : State) (i : Instr) :
    (s.beginCommand.accept i).complete = s.completed false := rfl

/-- Once: a command whose checks pass, and whose body changes registers that its acceptance does not touch,
completes without a wrap: `t` is `s` with those registers changed (R71). -/
theorem exec_completed_of_body {i : Instr} {s t : State} (checks : commandError i s = none)
    (body : bodyOf i (s.beginCommand.accept i) = t.beginCommand.accept i) :
    exec i s = .next (t.completed false) := by
  rw [exec_eq, runCommand_accepted _ checks, body, complete_accept]

/-- Check 4 of R181 rejects `CFG_COMMIT` exactly when the sign invariant fails (R24, R172). -/
theorem commandError_cfgCommit (s : State) :
    commandError .cfgCommit s =
      if 0 < s.coefs.a0e.toInt ∧ s.coefs.a1e.toInt < 0 ∧ 0 < s.coefs.a0o.toInt ∧ s.coefs.a1o.toInt < 0
      then none else some .cfgInvalid := by
  simp only [← coefs_ok_iff, commandError]
  cases s.coefs.ok <;> rfl

/-- Settles O16: no check can fail, and the body is the identity. -/
theorem nopOnlyCompletes : Obligations.NopOnlyCompletes :=
  ⟨rfl, fun _ => exec_completed_of_body (i := .nop) rfl rfl⟩

/-- Settles O17: no check can fail, `CFGV` included, and the body writes the cells alone. -/
theorem clearStateZeroesTheCells : Obligations.ClearStateZeroesTheCells :=
  ⟨rfl, fun s => exec_completed_of_body (i := .clearState) (t := { s with cells := Cells.zero }) rfl rfl⟩

/-- Settles O18: the signs decide check 4; the accepted body writes `CFGV` alone. -/
theorem cfgCommitValidatesTheSigns : Obligations.CfgCommitValidatesTheSigns := by
  refine ⟨rfl, fun s => ?_⟩
  split
  next signs =>
    have checks := (commandError_cfgCommit s).trans (if_pos signs)
    exact exec_completed_of_body (t := { s with cfgv := true }) checks rfl
  next signs =>
    have checks := (commandError_cfgCommit s).trans (if_neg signs)
    exact exec_rejected checks

end Sys2Proof.Machine
end

section
/-! ## Steps and the error record (60_exceptions) -/

namespace Sys2Proof.Machine

/-! ### Every step answers (R185) -/

/-- A word written to `CMD` is refused, run or issued: each is a next state. -/
theorem commandWrite_next (turns : Nat) (w : Word) (s : State) :
    ∃ t, commandWrite turns w s = .next t := by
  rcases commandWrite_cases turns w s with ⟨_, _, e⟩ | ⟨i, _, _, e⟩ | ⟨_, _, _, _, e⟩
  · exact ⟨_, e⟩
  · exact ⟨_, e.trans (exec_eq _ i)⟩
  · exact ⟨_, e⟩

theorem hostTurn_next (turns : Nat) (e : HostEvent) (s : State) : ∃ t, hostTurn turns e s = .next t := by
  unfold hostTurn
  cases serve e s with
  | done t => exact ⟨t, rfl⟩
  | command w t => exact commandWrite_next turns w t

/-- Settles O45: the sequencer's turn is a next state, and so is every host turn. -/
theorem everyStepAnswersANextState : Obligations.EveryStepAnswersANextState := by
  intro s
  rcases step_cases s with ⟨_, e⟩ | ⟨_, _, _, e⟩ | ⟨ev, rest, _, _, e⟩
  · exact ⟨_, e⟩
  · exact ⟨_, e⟩
  · rw [e]
    exact hostTurn_next _ ev _

/-! ### The idle core (R196) -/

theorem advance_idle {s : State} (h : s.seq = .idle) : advance s = s := by simp only [advance, h]

/-- Settles O55: with no event waiting the step is the sequencer's turn, which an idle core does not use. -/
theorem idleCoreKeepsItsState : Obligations.IdleCoreKeepsItsState := by
  intro s hb hh
  rw [step_without_event hh, advance_idle (busy_eq_false_iff.mp hb)]

/-! ### The error record (R182, R187) -/

theorem stepTurn_errcause (k : Nat) (p : Phase) (s : State) :
    (stepTurn k p s).errcause = s.errcause := by cases p <;> rfl

/-- No turn of the sequencer reaches the error record: a command's checks are made when it is written. -/
theorem advance_errcause (s : State) : (advance s).errcause = s.errcause := by
  rcases advance_cases s with ⟨_, e⟩ | ⟨n, k, _, _, e⟩ | ⟨n, k, v, _, _, e⟩ | ⟨_, _, _, _, e⟩ |
    ⟨k, _, e⟩ | ⟨k, _, _, _, e⟩ | ⟨i, _, _, _, _, _, e⟩ <;> rw [e]
  · exact (processEven_bodyFrame n k s).errcause
  · exact (processOdd_bodyFrame n k v s).errcause
  · exact complete_errcause s
  · exact stepTurn_errcause k _ s
  · exact stepTurn_errcause k _ s
  · exact (bodyOf_bodyFrame i s).errcause

@[simp] theorem taken_errcause (s : State) (rest : List HostEvent) :
    (s.taken rest).errcause = s.errcause := by
  unfold State.taken
  split <;> rfl

theorem pollStatus_errcause (s : State) : (pollStatus s).errcause = s.errcause := by
  unfold pollStatus
  split <;> rfl

theorem writeLoc_errcause (s : State) {l : Loc} (w : Word) (h : l ≠ .errcause) :
    (s.writeLoc l w).errcause = s.errcause := by
  cases l with
  | errcause => exact absurd rfl h
  | _ => rfl

section
variable {s : State} (recorded : s.errcause ≠ .none)
include recorded

theorem raiseError_errcause_recorded (c : ErrCode) : (s.raiseError c).errcause = s.errcause :=
  if_neg recorded

theorem busRead_errcause_recorded (bits : Nat) (off : BitVec 14) :
    (busRead bits off s).errcause = s.errcause := by
  obtain ⟨_, e, h, kept⟩ := busRead_eq bits off s
  rw [h]
  exact kept recorded

theorem rejected_errcause_recorded (c : ErrCode) : (s.rejected c).errcause = s.errcause :=
  if_neg recorded

/-- A command records an error only by its rejection, which keeps the code that is there. -/
theorem runCommand_errcause_recorded (i : Instr) :
    (s.runCommand i (bodyOf i)).errcause = s.errcause := by
  rcases runCommand_cases s i (bodyOf i) with ⟨c, _, e⟩ | ⟨_, e⟩ <;> rw [e]
  · exact rejected_errcause_recorded recorded c
  · exact (bodyOf_bodyFrame i _).errcause

theorem issue_errcause_recorded (i : Instr) : (s.issue i).errcause = s.errcause := by
  rcases issue_cases s i with ⟨c, _, e⟩ | ⟨_, e⟩ <;> rw [e]
  · exact rejected_errcause_recorded recorded c
  · rfl

end

/-- Settles O53: each thing a step can do keeps a recorded code, but a reset and the store to `ERRCAUSE`,
which clear it. -/
theorem firstErrorIsKept : Obligations.FirstErrorIsKept := by
  intro s t h hs
  rcases next_cases h with ⟨slack, draws, rfl⟩ | ⟨e, rest, hh, hcase⟩
  · exact .inl (advance_errcause _)
  · have same : (s.taken rest).errcause = s.errcause := taken_errcause s rest
    have recorded : (s.taken rest).errcause ≠ .none := same ▸ hs
    rw [← same]
    rcases hcase with ⟨bits, off, _, rfl⟩ | ⟨_, _, _, c, _, rfl⟩ | ⟨w, l, rfl, _, _, rfl⟩ |
      ⟨_, rfl⟩ | ⟨rfl, rfl⟩ | ⟨_, _, _, ⟨_, _, rfl⟩ | ⟨i, _, rfl | ⟨_, rfl⟩⟩⟩
    · exact .inl (busRead_errcause_recorded recorded bits off)
    · exact .inl (raiseError_errcause_recorded recorded c)
    · by_cases hl : l = .errcause
      · subst hl
        exact .inr ⟨rfl, .inr ⟨w, rest, hh⟩⟩
      · exact .inl (writeLoc_errcause _ w hl)
    · exact .inl (pollStatus_errcause _)
    · exact .inr ⟨rfl, .inl ⟨rest, hh⟩⟩
    · exact .inl (rejected_errcause_recorded recorded _)
    · exact .inl (runCommand_errcause_recorded recorded i)
    · exact .inl (issue_errcause_recorded recorded i)

end Sys2Proof.Machine
end

section
/-! ## Reset, and the end of every command (70_reset) -/

namespace Sys2Proof.Machine

/-! ### The reset event (R210, R211) -/

/-- Settles O42: the reset event is served alike while idle and while busy, and takes nothing of the core
from the state it finds but the depth. -/
theorem resetEventClearsTheCore : Obligations.ResetEventClearsTheCore :=
  fun s => ⟨s.resetEvent, rfl, resetEvent_cells s, resetEvent_coefs s, resetEvent_opa s, resetEvent_opb s,
    resetEvent_opc s, resetEvent_res s, rfl, resetEvent_errcause s, resetEvent_seq s,
    resetEvent_ovfPend s, rfl⟩

/-! ### The first command after reset (R212) -/

/-- A command whose checks pass right after reset, and whose body makes of zero operands a zero result without
a wrap, completes with nothing else changed: `RES` already holds that 0. -/
theorem exec_resetAt_writeRes {depthPred : Fin 1024} {i : Instr}
    (checks : commandError i (State.resetAt depthPred) = none)
    (body : ∀ s : State, s.opa = 0 → s.opb = 0 → s.opc = 0 → s.coefs.n3 = 0 →
      bodyOf i s = s.writeRes 0 false) :
    exec i (State.resetAt depthPred) = .next ((State.resetAt depthPred).completed false) :=
  exec_writeRes checks (body _ rfl rfl rfl rfl)

/-- Settles O44: `CFGV = 0` rejects the filter commands, `A0E = 0` the commit; of the commands that are
accepted `NOP` and `CLEAR_STATE` leave the state as it is, and every primitive is 0 on zero operands. -/
theorem afterResetFiltersAndCommitAreRefused : Obligations.AfterResetFiltersAndCommitAreRefused := by
  intro depthPred i s
  cases i with
  | nop => exact nopOnlyCompletes.2 s
  | process n => exact exec_rejected rfl
  | step => exact exec_rejected rfl
  | clearState => exact clearStateZeroesTheCells.2 s
  | cfgCommit => exact exec_rejected rfl
  | toFixed =>
    exact exec_resetAt_writeRes rfl fun _ ha _ _ _ => by
      simp [bodyOf, toFixedBody, State.sampleOperand, ha, lowHalf, toFixed, wrap32]
  | smul => exact exec_resetAt_writeRes rfl fun _ ha _ _ _ => by simp [bodyOf, smulBody, ha]
  | smla => exact exec_resetAt_writeRes rfl fun _ ha hb _ _ => by simp [bodyOf, smlaBody, ha, hb]
  | asr =>
    exact exec_resetAt_writeRes rfl fun _ ha _ _ _ => by
      simp [bodyOf, asrBody, ha, asr, wrap32]
  | sat16 =>
    exact exec_resetAt_writeRes rfl fun _ ha _ _ _ => by
      simp [bodyOf, sat16Body, ha, sat16, sext16]
  | add32 => exact exec_resetAt_writeRes rfl fun _ ha hb _ _ => by simp [bodyOf, add32Body, ha, hb]
  | sub32 => exact exec_resetAt_writeRes rfl fun _ ha hb _ _ => by simp [bodyOf, sub32Body, ha, hb]
  | gain =>
    exact exec_resetAt_writeRes rfl fun _ ha _ _ hn => by
      simp [bodyOf, gainBody, State.gainOperand, ha, hn, gainWraps_eq_false, sext16]

/-! ### Every command is eventually over (R222) -/

theorem busRead_slack (bits : Nat) (off : BitVec 14) (s : State) : (busRead bits off s).slack = s.slack := by
  obtain ⟨_, _, read, _⟩ := busRead_eq bits off s
  rw [read]

theorem pollStatus_slack (s : State) : (pollStatus s).slack = s.slack := by
  unfold pollStatus
  split <;> rfl

/-- No event but a reset changes how many host turns are still to land. -/
theorem serve_slack {s t : State} {e : HostEvent} (he : e ≠ .reset) (h : serve e s = .done t) :
    t.slack = s.slack := by
  cases e with
  | read bits off =>
    obtain rfl := Served.done.inj h
    exact busRead_slack bits off s
  | write bits off w =>
    rcases busWrite_cases bits off w s with ⟨c, _, hs⟩ | ⟨_, hs⟩ | ⟨l, _, _, hs⟩ <;>
      cases hs.symm.trans h
    · exact raiseError_slack s c
    · exact writeLoc_slack s l w
  | wait =>
    obtain rfl := Served.done.inj h
    exact pollStatus_slack s
  | reset => exact absurd rfl he

/-- How far a state is from idle: the turns its command has left (R43), then the host turns that land before
the next of them (log 6). -/
def State.distanceToIdle (s : State) : Nat ×ₗ Nat := toLex (s.seq.turnsLeft, s.slack)

/-- A turn of the sequencer brings a running command nearer to its end, whatever latency is drawn for the
next. -/
theorem advance_nearer {s : State} (hb : s.busy = true) (slack draws : Nat) :
    (advance { s with slack := slack, draws := draws }).distanceToIdle < s.distanceToIdle := by
  have left : (advance { s with slack := slack, draws := draws }).seq.turnsLeft = s.seq.turnsLeft - 1 :=
    advance_turnsLeft _
  have running := busy_iff_turnsLeft.mp hb
  exact Prod.Lex.toLex_lt_toLex.mpr (.inl (by omega))

/-- So does a host turn: it uses one of the slack and keeps the position, or it resets the core. -/
theorem hostTurn_nearer {s : State} (hb : s.busy = true) (hslack : s.slack ≠ 0) (turns : Nat)
    (e : HostEvent) (rest : List HostEvent) :
    ∃ t, hostTurn turns e (s.taken rest) = .next t ∧ t.distanceToIdle < s.distanceToIdle := by
  by_cases he : e = .reset
  · subst he
    exact ⟨_, rfl, Prod.Lex.toLex_lt_toLex.mpr (.inl (busy_iff_turnsLeft.mp hb))⟩
  · obtain ⟨t, served, kept⟩ := serve_busy (s := s.taken rest) (by rw [taken_busy, hb]) he
    have seq : t.seq = s.seq := kept.seq.trans (taken_quiet s rest).seq
    have slack : t.slack = s.slack - 1 := by
      rw [serve_slack he served]
      simp only [State.taken, hb, if_true]
    refine ⟨t, by simp only [hostTurn, served], Prod.Lex.toLex_lt_toLex.mpr (.inr ⟨?_, ?_⟩)⟩
    · exact congrArg Seq.turnsLeft seq
    · simp only [slack]
      omega

/-- Every step of a busy core answers a state that is nearer to idle. -/
theorem step_nearer {s : State} (hb : s.busy = true) :
    ∃ t, step s = .next t ∧ t.distanceToIdle < s.distanceToIdle := by
  rcases step_cases s with ⟨_, e⟩ | ⟨_, _, _, e⟩ | ⟨ev, rest, _, hslack, e⟩
  · exact ⟨_, e, advance_nearer hb s.slack s.draws⟩
  · exact ⟨_, e, advance_nearer hb _ _⟩
  · rw [e]
    exact hostTurn_nearer hb (hslack hb) _ ev rest

/-- Settles O30, by well-founded induction on the distance to idle. -/
theorem everyCommandIsEventuallyOver : Obligations.EveryCommandIsEventuallyOver := by
  intro s
  induction s using (InvImage.wf State.distanceToIdle wellFounded_lt).induction with
  | _ s ih =>
    cases hb : s.busy with
    | false => exact ⟨0, s, rfl, hb⟩
    | true =>
      obtain ⟨t, hstep, nearer⟩ := step_nearer hb
      obtain ⟨k, u, hrun, hidle⟩ := ih t nearer
      have first : Sys2Proof.core.step s = .next t := hstep
      exact ⟨k + 1, u, by simp only [Host.Core.run, first, hrun], hidle⟩

end Sys2Proof.Machine
end
